-- ==== Sys2Proof/Word.lean ====
section
/-!
DEFINITION. The widths of the CORE's lanes (spec/00_scope.md R9, spec/10_state.md R15).
-/

namespace Sys2Proof

/-- A byte, u8 (R9 `BBITS`, R11). -/
abbrev Byte := BitVec 8

/-- A 6-bit value, u6 (R9 `VBITS`, R11). The width is the lane's, so a value above 63 cannot be presented (R51). -/
abbrev Sextet := BitVec 6

/-- A symbol code: the 8-bit number that carries a symbol on a lane (R9 `SBITS`, R46). -/
abbrev SymbolCode := BitVec 8

/-- The 24-bit group word `W` (R9 `WBITS`, R43). -/
abbrev GroupWord := BitVec 24

/-- A string of bits, most significant first: what a request is on the wire (R41, R42). -/
abbrev Bits := List Bool

end Sys2Proof
end

