-- ==== Sys2Proof/Syntax.lean ====
section
/-!
DEFINITION. The six operations of the CORE with their operands (spec/00_scope.md R3, spec/30_encoding.md R41):
one constructor per row of spec/opcode_table.json.
-/

namespace Sys2Proof

/-- A request after decoding: the operation and its operands, each on a lane of its own width (R15, R42). -/
inductive Instr where
  /-- V2S, 6-bit value to symbol code (R59). -/
  | v2s (v : Sextet)
  /-- S2V, symbol code to 6-bit value, or a fault (R60). -/
  | s2v (s : SymbolCode)
  /-- PACK3, three bytes to four 6-bit values (R67). -/
  | pack3 (b1 b2 b3 : Byte)
  /-- UNPACK4, four 6-bit values to three bytes (R68). -/
  | unpack4 (c1 c2 c3 c4 : Sextet)
  /-- ENCODE, a byte sequence to a symbol string (R74). -/
  | encode (input : List Byte)
  /-- DECODE, a symbol string to a byte sequence, or a fault (R78). -/
  | decode (input : List SymbolCode)
  deriving DecidableEq, Repr

end Sys2Proof
end

