-- ==== Sys2Proof/Decode.lean ====
section
/-!
DEFINITION. Request words: decoding any string of bits, rejecting by name, and the encoder beside it
(spec/30_encoding.md R41, R42, R50, R51).
-/

namespace Sys2Proof

/-! ### Bit fields, most significant bit first (R10, R42) -/

/-- The low `w` bits of a natural number, most significant first. -/
def bitsOfNat : Nat → Nat → Bits
  | 0, _ => []
  | w + 1, n => n.testBit w :: bitsOfNat w n

/-- The number a bit string writes, its first bit the most significant. -/
def natOfBits : Bits → Nat
  | [] => 0
  | b :: bs => b.toNat * 2 ^ bs.length + natOfBits bs

/-- A field of a request as bits. -/
def bitsOf {w : Nat} (x : BitVec w) : Bits :=
  bitsOfNat w x.toNat

/-- A bit string read as a field of `w` bits. -/
def fieldOf (w : Nat) (bs : Bits) : BitVec w :=
  BitVec.ofNat w (natOfBits bs)

/-- A buffer on the wire: its elements in order, 8 bits each (R42). -/
def bitsOfBytes : List Byte → Bits
  | [] => []
  | b :: bs => bitsOf b ++ bitsOfBytes bs

/-- A buffer read back: whole elements of 8 bits, or nothing. -/
def bytesOfBits : Bits → Option (List Byte)
  | [] => some []
  | b7 :: b6 :: b5 :: b4 :: b3 :: b2 :: b1 :: b0 :: rest =>
    (bytesOfBits rest).map (fieldOf 8 [b7, b6, b5, b4, b3, b2, b1, b0] :: ·)
  | _ => none

/-! ### The operation select (R41) -/

/-- What the `op` field selects; the values 6 and 7 select nothing (R50). -/
inductive OpSelect where
  | v2s
  | s2v
  | pack3
  | unpack4
  | encode
  | decode
  deriving DecidableEq, Repr

/-- The `op` value of an operation, the table of R41. -/
def opCode : OpSelect → BitVec 3
  | .v2s => 0
  | .s2v => 1
  | .pack3 => 2
  | .unpack4 => 3
  | .encode => 4
  | .decode => 5

/-- The operation an `op` value selects, the table of R41; 6 and 7 are reserved (R50). -/
def opOfCode (op : BitVec 3) : Option OpSelect :=
  match op.toNat with
  | 0 => some .v2s
  | 1 => some .s2v
  | 2 => some .pack3
  | 3 => some .unpack4
  | 4 => some .encode
  | 5 => some .decode
  | _ => none

/-! ### Decoding a request (R41, R42) -/

/-- Why a bit string is no request of the CORE. -/
inductive DecodeError where
  /-- Fewer bits than the `op` field has. -/
  | noSelect
  /-- `op` is 6 or 7 (R50). -/
  | reservedSelect (op : BitVec 3)
  /-- The operand bits are not as many as the operation's lanes take (R42, R51). -/
  | operandWidth (op : BitVec 3)
  deriving DecidableEq, Repr

/-- The operands of an operation from the bits after `op`, the layouts of R42; `none` if they do not fill the lanes. -/
def decodeOperands (o : OpSelect) (x : Bits) : Option Instr :=
  match o with
  | .v2s => if x.length = 6 then some (.v2s (fieldOf 6 x)) else none
  | .s2v => if x.length = 8 then some (.s2v (fieldOf 8 x)) else none
  | .pack3 =>
    if x.length = 24 then
      some (.pack3 (fieldOf 8 (x.take 8)) (fieldOf 8 ((x.drop 8).take 8)) (fieldOf 8 (x.drop 16)))
    else none
  | .unpack4 =>
    if x.length = 24 then
      some (.unpack4 (fieldOf 6 (x.take 6)) (fieldOf 6 ((x.drop 6).take 6)) (fieldOf 6 ((x.drop 12).take 6))
        (fieldOf 6 (x.drop 18)))
    else none
  | .encode => (bytesOfBits x).map .encode
  | .decode => (bytesOfBits x).map .decode

/-- The request a bit string spells: `op` is its first 3 bits, the operands follow (R41, R42). -/
def decode (r : Bits) : Except DecodeError Instr :=
  match r with
  | o2 :: o1 :: o0 :: operands =>
    match opOfCode (fieldOf 3 [o2, o1, o0]) with
    | none => .error (.reservedSelect (fieldOf 3 [o2, o1, o0]))
    | some o =>
      match decodeOperands o operands with
      | none => .error (.operandWidth (fieldOf 3 [o2, o1, o0]))
      | some i => .ok i
  | _ => .error .noSelect

/-! ### Encoding a request (R41, R42) -/

/-- The operation of a request. -/
def opSelectOf : Instr → OpSelect
  | .v2s _ => .v2s
  | .s2v _ => .s2v
  | .pack3 _ _ _ => .pack3
  | .unpack4 _ _ _ _ => .unpack4
  | .encode _ => .encode
  | .decode _ => .decode

/-- The operand bits of a request, first operand most significant (R42). -/
def operandBits : Instr → Bits
  | .v2s v => bitsOf v
  | .s2v s => bitsOf s
  | .pack3 b1 b2 b3 => bitsOf b1 ++ bitsOf b2 ++ bitsOf b3
  | .unpack4 c1 c2 c3 c4 => bitsOf c1 ++ bitsOf c2 ++ bitsOf c3 ++ bitsOf c4
  | .encode input => bitsOfBytes input
  | .decode input => bitsOfBytes input

/-- The request word of an operation: `op`, then the operands (R41, R42). -/
def encode (i : Instr) : Bits :=
  bitsOf (opCode (opSelectOf i)) ++ operandBits i

/-! ### Words as spec/opcode_table.json numbers them -/

/-- The widths a request kept in `nbits` bits may have: `nbits` itself or, where `nbits` counts whole bytes, a width of
R42 that rounds up to it (DEDUCED, log entry 5). -/
def tableWidths (nbits : Nat) : List Nat :=
  [nbits, nbits - 5, nbits - 7].filter (fun width => width ≤ nbits ∧ nbits < width + 8)

/-- The word `w` as a request of one of those widths: the first that holds `w` and decodes. -/
def tableRequest (nbits w : Nat) : Option Bits :=
  ((tableWidths nbits).filter (fun width => w < 2 ^ width)).map (fun width => bitsOfNat width w)
    |>.find? (fun r => (decode r).toOption.isSome)

/-- The instruction the decoder reads from a row's word, bit 0 the least significant. -/
def decodeTableWord (nbits w : Nat) : Option Instr :=
  (tableRequest nbits w).bind (fun r => (decode r).toOption)

end Sys2Proof
end

