-- ==== Sys2Proof/Config.lean ====
section
/-!
DEFINITION. What an implementation of the CORE fixes: the one open parameter of spec/00_scope.md R9.
-/

namespace Sys2Proof

/-- The parameters of an implementation. -/
structure Config where
  /-- `NMAX`, the greatest input length of ENCODE and DECODE; `none` is unbounded (R9, R25, D9). -/
  nmax : Option Nat
  deriving DecidableEq, Repr

/-- "With no `NMAX` given, every `n` is accepted" (R25). -/
def Config.default : Config := { nmax := none }

/-- An input of `n` elements is one the implementation takes: not `n > NMAX` (R25). -/
def Config.admits (c : Config) (n : Nat) : Bool :=
  match c.nmax with
  | none => true
  | some bound => n ≤ bound

end Sys2Proof
end

