-- ==== Sys2Proof/Machine/State.lean ====
section
/-!
DEFINITION. Responses, the state on the two sides of the port, the reasons a step can stop, and reset
(spec/10_state.md, spec/60_exceptions.md, spec/70_reset_and_hazards.md).

The block itself keeps nothing between operations (R13, R17 to R21, R23), so no field below is the block's. The fields
are its one parameter and the host's two sides of the port: what it will present, and what it has been answered.
-/

namespace Sys2Proof.Machine

/-- The system's error kinds (R99). The CORE raises `alphabet` alone (R100); the others are the collaborators'. -/
inductive ErrorKind where
  | decoding
  | hexFormat
  | alphabet
  | compression
  deriving DecidableEq, Repr

/-- The causes of an alphabet error (R101): BAD_SYMBOL and BAD_LENGTH. -/
inductive Cause where
  | badSymbol
  | badLength
  deriving DecidableEq, Repr

/-- The report of a FAULT response (R101). -/
structure FaultReport where
  kind  : ErrorKind
  cause : Cause
  index : Nat
  deriving DecidableEq, Repr

/-- The result of an OK response, one constructor per result row of R42. -/
inductive Result where
  /-- V2S: `s[7:0]`. -/
  | symbol (s : SymbolCode)
  /-- S2V: `v[5:0]`. -/
  | value (v : Sextet)
  /-- PACK3: `c1 c2 c3 c4`. -/
  | values (c1 c2 c3 c4 : Sextet)
  /-- UNPACK4: `b1 b2 b3`. -/
  | bytes (b1 b2 b3 : Byte)
  /-- ENCODE: `OUT`, a sequence of symbol codes (R28). -/
  | symbolString (out : List SymbolCode)
  /-- DECODE: `OUT`, a sequence of bytes (R28). -/
  | byteSequence (out : List Byte)
  deriving DecidableEq, Repr

/-- "A model returns either `OK result` or `FAULT report`, never both, and never a prefix of the result with a fault"
(R106). -/
inductive Response where
  | ok (r : Result)
  | fault (f : FaultReport)
  deriving DecidableEq, Repr

/-- One transaction as the host sees it (R14): the request, which the host still holds unchanged (R22), and its
response, or `none` when a reset abandoned the operation (R117). -/
structure Transaction where
  request  : Instr
  response : Option Response
  deriving DecidableEq, Repr

/-- What the host can do to the block (R89): present a request, or reset it, idle (R116) or during an operation
(R117). -/
inductive HostInput where
  /-- A request, whole (R14, R42). -/
  | request (r : Bits)
  /-- A request, and a reset that arrives before its response. -/
  | requestThenReset (r : Bits)
  /-- A reset of the idle instance. -/
  | reset
  deriving DecidableEq, Repr

/-- The state between two operations: the instance is idle, which is one value and needs no field (R13, R23). -/
structure State where
  /-- The implementation's parameters (R9); no step writes them. -/
  config : Config
  /-- The host's inputs not yet taken, oldest first. -/
  inputs : List HostInput
  /-- The transactions ended so far, oldest first. -/
  transcript : List Transaction
  deriving DecidableEq, Repr

/-- Why the machine stops with a fault. The alphabet error is not among them: it is a response (R105). -/
inductive Fault where
  /-- Raised by a read of a buffer element that does not exist (R26: `MemRead(i, 1)` is defined for `0 ≤ i < n`).
  Safe: the model stops; no operation does such a read (R88). -/
  | noElement (index : Nat)
  deriving DecidableEq, Repr

/-- Why a request has no meaning. -/
inductive Refusal where
  /-- Raised by an arm of `exec` whose operation has no meaning yet. Safe: the model stops. No arm is one. -/
  | notModelled (mnemonic : String)
  /-- Raised by taking a request whose `op` is 6 or 7 (R50). Safe: the request has no response in the spec. -/
  | reservedSelect (op : BitVec 3)
  /-- Raised by taking a bit string whose length fits no operation's lanes (R42, R51). Safe: no such request can be
  presented. -/
  | malformedRequest
  /-- Raised by ENCODE and DECODE when `n > NMAX` (R25). Safe: such a request is given no meaning. -/
  | inputTooLong (n : Nat)
  deriving DecidableEq, Repr

/-- The state right after reset: the instance idle, nothing presented, nothing answered (R23, R116), and no length
bound (R9). The two host-side fields and the bound are DESIGN CHOICE (log entries 1, 2, 4). -/
def State.reset : State :=
  { config := Config.default, inputs := [], transcript := [] }

end Sys2Proof.Machine
end

