-- ==== Sys2Proof/Machine/Ops.lean ====
section
/-!
DEFINITION. The shared operations: the two buffers of spec/20_memory.md, raising the alphabet error and answering a
request (spec/60_exceptions.md R101 to R107), reset (spec/70_reset_and_hazards.md R116, R117).
-/

namespace Sys2Proof.Machine

/-! ### Buffers: `IN` and `OUT` as index spaces (R25 to R27) -/

/-- A buffer's elements by index. An index that is not listed holds no element: reading it is not defined (R26). -/
abbrev Memory := List Host.Cell

/-- The canonical form: indices strictly rising. -/
abbrev Memory.wf (m : Memory) : Prop :=
  m.Pairwise (fun x y => x.1 < y.1)

/-- The element at an index, if there is one. -/
def Memory.read : Memory → Nat → Option Byte
  | [], _ => none
  | (a, b) :: m, i => if i = a then some b else Memory.read m i

/-- `MemWrite(j, 1, v)` (R27): sets one element, keeping the canonical form. -/
def Memory.write : Memory → Nat → Byte → Memory
  | [], j, v => [(j, v)]
  | (a, b) :: m, j, v =>
    if j < a then (j, v) :: (a, b) :: m
    else if j = a then (j, v) :: m
    else (a, b) :: Memory.write m j v

/-- The elements of a sequence at indices from `start` upward. -/
def Memory.load (start : Nat) : List Byte → Memory
  | [] => []
  | b :: bs => (start, b) :: Memory.load (start + 1) bs

/-- The buffer as the sequence the port carries, in index order (R30). -/
def Memory.elements (m : Memory) : List Byte :=
  m.map Prod.snd

/-! ### One operation, from request to response -/

/-- How an operation ends before its result: the fault of R101, or a read the spec does not define (R26). -/
inductive Abort where
  | alphabetError (cause : Cause) (index : Nat)
  | noElement (index : Nat)
  deriving DecidableEq, Repr

/-- `MemRead(i, 1)` of R26, defined for `0 ≤ i < n` and for no other index. -/
def memRead (m : Memory) (i : Nat) : Except Abort Byte :=
  match m.read i with
  | some b => .ok b
  | none => .error (.noElement i)

/-- The response ends the transaction; nothing else changes (R14, R107). -/
def State.deliver (s : State) (i : Instr) (r : Response) : State :=
  { s with transcript := s.transcript ++ [{ request := i, response := some r }] }

/-- The operation is abandoned with no response (R117). -/
def State.abandon (s : State) (i : Instr) : State :=
  { s with transcript := s.transcript ++ [{ request := i, response := none }] }

/-- Reset of an idle instance: the block holds nothing, so "there is nothing else for reset to set" (R116). -/
def State.resetInstance (s : State) : State :=
  s

/-- Raising `AlphabetError(cause, index)`: the fault is delivered in the response of the operation that raised it and
nowhere else; no handler, no saved state, no output (R105, R106). There is nothing to return from (R107), so no return
operation stands beside it. -/
def raiseAlphabetError (s : State) (i : Instr) (cause : Cause) (index : Nat) : State :=
  s.deliver i (.fault { kind := .alphabet, cause := cause, index := index })

/-- The end of an operation: `return X` answers OK with the whole result, `raise` answers FAULT with the report alone
(R10, R16, R106). -/
def finish (i : Instr) (x : Except Abort Result) (s : State) : Host.Outcome State Fault Refusal :=
  match x with
  | .ok r => .next (s.deliver i (.ok r))
  | .error (.alphabetError cause index) => .next (raiseAlphabetError s i cause index)
  | .error (.noElement index) => .fault (.noElement index)

/-- ENCODE and DECODE take an input of at most `NMAX` elements; a longer one is refused, never truncated (R25, D9). -/
def finishBounded (i : Instr) (n : Nat) (x : Except Abort Result) (s : State) : Host.Outcome State Fault Refusal :=
  if s.config.admits n then finish i x s else .refused (.inputTooLong n)

end Sys2Proof.Machine
end

