-- ==== Sys2Proof/Machine/Operands.lean ====
section
/-!
DEFINITION. Operand forms: the two views of the group word (spec/30_encoding.md R43) and the buffer elements of a group
(spec/42_custom_codec.md R74, R78, R88).
-/

namespace Sys2Proof.Machine

/-- The byte view `W = {b1, b2, b3}` (R43). -/
def groupOfBytes (b1 b2 b3 : Byte) : GroupWord :=
  b1 ++ b2 ++ b3

/-- The 6-bit view `W = {c1, c2, c3, c4}` (R43). -/
def groupOfValues (c1 c2 c3 c4 : Sextet) : GroupWord :=
  c1 ++ c2 ++ c3 ++ c4

/-- A byte of an ENCODE group: the element of `IN`, or the synthetic zero byte where `IN` has none (R74, R75). -/
def byteOrZero (input : Memory) (n i : Nat) : Except Abort Byte :=
  if i < n then memRead input i else .ok 0

/-- `ceil(n/3)`, the groups of an ENCODE input (R53, R74). -/
def encodeGroupCount (n : Nat) : Nat :=
  (n + 2) / 3

/-- `floor(n/4)`, the complete groups of a DECODE input (R78). -/
def decodeGroupCount (n : Nat) : Nat :=
  n / 4

end Sys2Proof.Machine
end

