-- ==== Sys2Proof/Machine/Flags.lean ====
section
/-!
DEFINITION. The one flag, the status of a response (spec/10_state.md R16), and the numbers and words a response shows
the host (spec/60_exceptions.md R99, R101, spec/30_encoding.md R42).
-/

namespace Sys2Proof.Machine

/-- OK or FAULT (R16). -/
inductive Status where
  | ok
  | fault
  deriving DecidableEq, Repr

/-- The status is part of the response, not a register (R16). -/
def statusOf : Response → Status
  | .ok _ => .ok
  | .fault _ => .fault

/-- The `kind` field, u3 (R99). -/
def kindCode : ErrorKind → BitVec 3
  | .decoding => 1
  | .hexFormat => 2
  | .alphabet => 3
  | .compression => 4

/-- The `cause` field, u2 (R101). -/
def causeCode : Cause → BitVec 2
  | .badSymbol => 1
  | .badLength => 2

/-- The word of an OK response, the layouts of R42. -/
def responseWord : Result → Bits
  | .symbol s => bitsOf s
  | .value v => bitsOf v
  | .values c1 c2 c3 c4 => bitsOf (groupOfValues c1 c2 c3 c4)
  | .bytes b1 b2 b3 => bitsOf (groupOfBytes b1 b2 b3)
  | .symbolString out => bitsOfBytes out
  | .byteSequence out => bitsOfBytes out

end Sys2Proof.Machine
end

