-- ==== Sys2Proof/Machine/BitPacker.lean ====
section
/-!
DEFINITION. The Bit Packer operations PACK3 and UNPACK4 (spec/41_bit_packer.md): the formulas of R67 and R68, evaluated
in 8-bit arithmetic, which R70 says is immaterial.
-/

namespace Sys2Proof.Machine

/-- `c1 = b1 >> 2` (R67). -/
def packFirst (b1 : Byte) : Sextet :=
  (b1 >>> 2).setWidth 6

/-- `c2 = ((b1 & 0x03) << 4) | (b2 >> 4)` (R67). -/
def packSecond (b1 b2 : Byte) : Sextet :=
  (((b1 &&& 0x03) <<< 4) ||| (b2 >>> 4)).setWidth 6

/-- `c3 = ((b2 & 0x0F) << 2) | (b3 >> 6)` (R67). -/
def packThird (b2 b3 : Byte) : Sextet :=
  (((b2 &&& 0x0F) <<< 2) ||| (b3 >>> 6)).setWidth 6

/-- `c4 = b3 & 0x3F` (R67). -/
def packFourth (b3 : Byte) : Sextet :=
  (b3 &&& 0x3F).setWidth 6

/-- `b1 = (c1 << 2) | ((c2 >> 4) & 0x03)` (R68). -/
def unpackFirst (c1 c2 : Sextet) : Byte :=
  (c1.setWidth 8 <<< 2) ||| ((c2.setWidth 8 >>> 4) &&& 0x03)

/-- `b2 = ((c2 << 4) & 0xF0) | ((c3 >> 2) & 0x0F)` (R68). -/
def unpackSecond (c2 c3 : Sextet) : Byte :=
  ((c2.setWidth 8 <<< 4) &&& 0xF0) ||| ((c3.setWidth 8 >>> 2) &&& 0x0F)

/-- `b3 = ((c3 << 6) & 0xC0) | (c4 & 0x3F)` (R68). -/
def unpackThird (c3 c4 : Sextet) : Byte :=
  ((c3.setWidth 8 <<< 6) &&& 0xC0) ||| (c4.setWidth 8 &&& 0x3F)

/-- PACK3 (R67): always OK. -/
def execPack3 (b1 b2 b3 : Byte) (s : State) : Host.Outcome State Fault Refusal :=
  finish (.pack3 b1 b2 b3)
    (.ok (.values (packFirst b1) (packSecond b1 b2) (packThird b2 b3) (packFourth b3))) s

/-- UNPACK4 (R68): always OK. -/
def execUnpack4 (c1 c2 c3 c4 : Sextet) (s : State) : Host.Outcome State Fault Refusal :=
  finish (.unpack4 c1 c2 c3 c4)
    (.ok (.bytes (unpackFirst c1 c2) (unpackSecond c2 c3) (unpackThird c3 c4))) s

end Sys2Proof.Machine
end

