-- ==== Sys2Proof/Machine/SymbolTable.lean ====
section
/-!
DEFINITION. The Symbol Table operations V2S and S2V (spec/40_symbol_table.md).
-/

namespace Sys2Proof.Machine

/-- `valueToSymbol`, the pseudocode of R59; the codes 45 and 95 are those of R47. -/
def valueToSymbol (v : Sextet) : SymbolCode :=
  if v ≤ 9 then v.setWidth 8 + 48
  else if v ≤ 35 then v.setWidth 8 + 55
  else if v ≤ 61 then v.setWidth 8 + 61
  else if v = 62 then 45
  else 95

/-- `symbolToValue`, the pseudocode of R60: `none` for the codes that are not symbols. -/
def symbolToValue (s : SymbolCode) : Option Sextet :=
  if s = 95 then some 63
  else if s = 45 then some 62
  else if 97 ≤ s ∧ s ≤ 122 then some ((s - 61).setWidth 6)
  else if 65 ≤ s ∧ s ≤ 90 then some ((s - 55).setWidth 6)
  else if 48 ≤ s ∧ s ≤ 57 then some ((s - 48).setWidth 6)
  else none

/-- A symbol at `index` of the operand, or the fault of R102 at that position. -/
def valueOrFault (s : SymbolCode) (index : Nat) : Except Abort Sextet :=
  match symbolToValue s with
  | some v => .ok v
  | none => .error (.alphabetError .badSymbol index)

/-- V2S (R59): always OK. -/
def execV2s (v : Sextet) (s : State) : Host.Outcome State Fault Refusal :=
  finish (.v2s v) (.ok (.symbol (valueToSymbol v))) s

/-- S2V (R60): OK with the value, or AlphabetError(BAD_SYMBOL, 0) and no value. -/
def execS2v (c : SymbolCode) (s : State) : Host.Outcome State Fault Refusal :=
  finish (.s2v c) ((valueOrFault c 0).map .value) s

end Sys2Proof.Machine
end

