-- ==== Sys2Proof/Machine/CustomCodec.lean ====
section
/-!
DEFINITION. The Custom Codec operations ENCODE and DECODE (spec/42_custom_codec.md R74, R78): the group loops over the
buffers `IN` and `OUT`, with the group cursor `g` of spec/10_state.md R18.
-/

namespace Sys2Proof.Machine

/-- The four symbols of a packed group at `OUT[4g]` to `OUT[4g + 3]` (R30, R74). -/
def writeSymbols (out : Memory) (g : Nat) (b1 b2 b3 : Byte) : Memory :=
  (((out.write (4 * g) (valueToSymbol (packFirst b1))).write
    (4 * g + 1) (valueToSymbol (packSecond b1 b2))).write
    (4 * g + 2) (valueToSymbol (packThird b2 b3))).write
    (4 * g + 3) (valueToSymbol (packFourth b3))

/-- One pass of the ENCODE loop (R74): group `g` of `IN` into `OUT`. -/
def encodeGroup (input : Memory) (n g : Nat) (out : Memory) : Except Abort Memory := do
  let b1 ← memRead input (3 * g)
  let b2 ← byteOrZero input n (3 * g + 1)
  let b3 ← byteOrZero input n (3 * g + 2)
  return writeSymbols out g b1 b2 b3

/-- The ENCODE loop: `passes` groups from `g` upward (R74, R87). -/
def encodeGroups (input : Memory) (n : Nat) : Nat → Nat → Memory → Except Abort Memory
  | 0, _, out => .ok out
  | passes + 1, g, out => do encodeGroups input n passes (g + 1) (← encodeGroup input n g out)

/-- ENCODE over a whole input (R74). -/
def encodeBuffer (input : List Byte) : Except Abort Result := do
  let out ← encodeGroups (Memory.load 0 input) input.length (encodeGroupCount input.length) 0 []
  return .symbolString out.elements

/-- Element `i` of a DECODE group as a 6-bit value, or the fault at position `i` of `IN` (R78, R80). -/
def readSymbol (input : Memory) (i : Nat) : Except Abort Sextet := do
  valueOrFault (← memRead input i) i

/-- The three bytes of an unpacked group at `OUT[3g]` to `OUT[3g + 2]` (R30, R78). -/
def writeBytes (out : Memory) (g : Nat) (c1 c2 c3 c4 : Sextet) : Memory :=
  ((out.write (3 * g) (unpackFirst c1 c2)).write
    (3 * g + 1) (unpackSecond c2 c3)).write
    (3 * g + 2) (unpackThird c3 c4)

/-- One pass of the DECODE loop (R78): the four symbols left to right, then the unpacked bytes. -/
def decodeGroup (input : Memory) (g : Nat) (out : Memory) : Except Abort Memory := do
  let c1 ← readSymbol input (4 * g)
  let c2 ← readSymbol input (4 * g + 1)
  let c3 ← readSymbol input (4 * g + 2)
  let c4 ← readSymbol input (4 * g + 3)
  return writeBytes out g c1 c2 c3 c4

/-- The DECODE loop: `passes` groups from `g` upward, left at the first illegal symbol (R78, R80, R87). -/
def decodeGroups (input : Memory) : Nat → Nat → Memory → Except Abort Memory
  | 0, _, out => .ok out
  | passes + 1, g, out => do decodeGroups input passes (g + 1) (← decodeGroup input g out)

/-- DECODE over a whole input: the complete groups, then the length (R78, R79, R104). -/
def decodeBuffer (input : List SymbolCode) : Except Abort Result := do
  let out ← decodeGroups (Memory.load 0 input) (decodeGroupCount input.length) 0 []
  if input.length % 4 = 0 then
    return .byteSequence out.elements
  else
    throw (.alphabetError .badLength (4 * decodeGroupCount input.length))

/-- ENCODE (R74): always OK on an input the implementation takes. -/
def execEncode (input : List Byte) (s : State) : Host.Outcome State Fault Refusal :=
  finishBounded (.encode input) input.length (encodeBuffer input) s

/-- DECODE (R78): OK with the bytes, or the alphabet error of R79 or R80 and no output. -/
def execDecode (input : List SymbolCode) (s : State) : Host.Outcome State Fault Refusal :=
  finishBounded (.decode input) input.length (decodeBuffer input) s

end Sys2Proof.Machine
end

