-- ==== Sys2Proof/Machine/Dispatch.lean ====
section
/-! DEFINITION. One arm per operation (spec/30_encoding.md R41). -/

namespace Sys2Proof.Machine

def exec (i : Instr) (s : State) : Host.Outcome State Fault Refusal :=
  match i with
  | .v2s v => Sys2Proof.Machine.execV2s v s
  | .s2v c => Sys2Proof.Machine.execS2v c s
  | .pack3 b1 b2 b3 => Sys2Proof.Machine.execPack3 b1 b2 b3 s
  | .unpack4 c1 c2 c3 c4 => Sys2Proof.Machine.execUnpack4 c1 c2 c3 c4 s
  | .encode input => Sys2Proof.Machine.execEncode input s
  | .decode input => Sys2Proof.Machine.execDecode input s

end Sys2Proof.Machine
end

