-- ==== Sys2Proof/Machine/Port.lean ====
section
/-!
DEFINITION. The port: taking the host's next input and serving it (spec/10_state.md R14, spec/30_encoding.md R50,
spec/70_reset_and_hazards.md R116, R117).
-/

namespace Sys2Proof.Machine

/-- The name under which a bit string that is no request is refused (R50, R51). -/
def refusalOf : DecodeError → Refusal
  | .noSelect => .malformedRequest
  | .reservedSelect op => .reservedSelect op
  | .operandWidth _ => .malformedRequest

/-- A reset that arrives before the response: an operation in progress is abandoned with no response and no output
(R117). A request that has no meaning starts no operation and is refused as without the reset (log entry 10). -/
def abandonInstead (i : Instr) (s : State) : Host.Outcome State Fault Refusal :=
  match exec i s with
  | .next _ => .next (s.abandon i)
  | .fault r => .fault r
  | .refused r => .refused r

/-- A request is decoded once, when it is presented (R39), and served whole (R14). -/
def serveRequest (serve : Instr → State → Host.Outcome State Fault Refusal) (r : Bits) (s : State) :
    Host.Outcome State Fault Refusal :=
  match decode r with
  | .ok i => serve i s
  | .error e => .refused (refusalOf e)

/-- One input of the host, served from the idle state. -/
def serveInput (x : HostInput) (s : State) : Host.Outcome State Fault Refusal :=
  match x with
  | .request r => serveRequest exec r s
  | .requestThenReset r => serveRequest abandonInstead r s
  | .reset => .next s.resetInstance

/-- The state once the oldest input is taken. -/
def State.withInputs (s : State) (xs : List HostInput) : State :=
  { s with inputs := xs }

/-- The oldest input is taken and served; an instance that is presented nothing stays idle (log entry 3). -/
def serveNext (s : State) : Host.Outcome State Fault Refusal :=
  match s.inputs with
  | [] => .next s
  | x :: xs => serveInput x (s.withInputs xs)

/-- The width of a word that spells no request: a width of R42 that rounds up to whole bytes, if the word fits it. -/
def unreadWidth (nbits w : Nat) : Nat :=
  if nbits % 8 = 0 ∧ w < 2 ^ (nbits - 5) then nbits - 5 else nbits

/-- The bits of a row's word as the host presents them: the request the decoder reads from it or, where there is none,
the bits as they are. -/
def presentedBits (nbits w : Nat) : Bits :=
  (tableRequest nbits w).getD (bitsOfNat (unreadWidth nbits w) w)

end Sys2Proof.Machine
end

