-- ==== Sys2Proof/Machine/Step.lean ====
section
/-! DEFINITION. One step: one input of the host, from idle to idle (spec/10_state.md R14). -/

namespace Sys2Proof.Machine

/-- One atomic step (R14, R126). -/
def step (s : State) : Host.Outcome State Fault Refusal :=
  serveNext s

/-- `s` with a row's word as the very next request the host presents; nothing else changes (log entry 11). -/
def State.withFetchWord (s : State) (nbits w : Nat) : State :=
  s.withInputs (.request (presentedBits nbits w) :: s.inputs)

end Sys2Proof.Machine
end

