-- ==== Sys2Proof/Machine/Compositions.lean ====
section
/-!
DEFINITION. The host's four pseudo-operations over one CORE and their round trips (spec/43_host_compositions.md R92 to
R98). They are outside the block (spec/00_scope.md R6): no step runs them. The collaborators are uninterpreted functions
with the contracts of R90 and R91 and nothing more (D18). What R91 says of the hex and UTF-8 collaborators is part of the
type; the two properties of the deflate collaborator are assumed, not specified (R90), so a claim takes them as
hypotheses.
-/

namespace Sys2Proof.Machine

/-! ### Hexadecimal text (R91; codes and digit values PRESUMED, log entries 14 and 19) -/

/-- The lowercase digit of a 4-bit value: `0` to `9`, `a` to `f`. -/
def hexDigitCode (d : BitVec 4) : Byte :=
  if d ≤ 9 then d.setWidth 8 + 48 else d.setWidth 8 + 87

/-- "lowercase-hex": two digits per byte, high digit first. -/
def lowerHex (x : List Byte) : List Byte :=
  x.flatMap (fun b => [hexDigitCode (b.extractLsb' 4 4), hexDigitCode (b.extractLsb' 0 4)])

/-- An uppercase digit, `A` to `F`: the spec does not say whether the hex decoder accepts it (N19). -/
def isUpperHexDigit (c : Byte) : Bool :=
  65 ≤ c && c ≤ 70

/-- The value of a digit of either case; `none` for a code that is no hexadecimal digit. -/
def hexDigitValue (c : Byte) : Option (BitVec 4) :=
  if 48 ≤ c ∧ c ≤ 57 then some ((c - 48).setWidth 4)
  else if 97 ≤ c ∧ c ≤ 102 then some ((c - 87).setWidth 4)
  else if isUpperHexDigit c then some ((c - 55).setWidth 4)
  else none

/-- The bytes of a string of digit pairs; `none` on "odd-length or non-hex-digit input" (R91, R99). -/
def readHex : List Byte → Option (List Byte)
  | [] => some []
  | [_] => none
  | high :: low :: rest =>
    match hexDigitValue high, hexDigitValue low, readHex rest with
    | some h, some l, some bytes => some ((h ++ l : Byte) :: bytes)
    | _, _, _ => none

/-! ### The collaborators -/

/-- The collaborators by contract. `Text` is the host's type of texts; `none` is a collaborator's failure. -/
structure Collaborators (Text : Type) where
  utf8       : Text → List Byte
  utf8check  : List Byte → Option Text
  compress   : List Byte → Option (List Byte)
  decompress : List Byte → Option (List Byte)
  hexenc     : List Byte → List Byte
  hexdec     : List Byte → Option (List Byte)
  /-- The check gives a text exactly for the bytes of that text, and fails on an "invalid UTF-8 byte sequence" (R91):
  one that is the bytes of no text (DEDUCED, log entry 20). -/
  utf8check_eq : ∀ x text, utf8check x = some text ↔ utf8 text = x
  /-- The hex encoder writes lowercase hexadecimal (R91). -/
  hexenc_eq  : ∀ x, hexenc x = lowerHex x
  /-- The hex decoder reads digit pairs and fails on the rest; on a string with an uppercase digit it may also fail
  (R91, N19). -/
  hexdec_eq  : ∀ x, hexdec x = readHex x ∨ (hexdec x = none ∧ ∃ c ∈ x, isUpperHexDigit c = true)

/-- `decompress(compress(x)) = x`, assumed of the deflate collaborator (R90). -/
def Collaborators.DecompressUndoesCompress {Text : Type} (k : Collaborators Text) : Prop :=
  ∀ x z, k.compress x = some z → k.decompress z = some x

/-- The decompressor is "tolerant of 0–2 extra zero bytes appended at the end of the byte stream it consumes", assumed
of it (R90). -/
def Collaborators.ToleratesZeros {Text : Type} (k : Collaborators Text) : Prop :=
  ∀ x z p, k.compress x = some z → p ≤ 2 → k.decompress (z ++ List.replicate p 0) = k.decompress z

/-! ### The pseudo-operations -/

/-- What a pseudo-operation gives the caller: a result, or one error tagged by kind (R99), or nothing the spec says
(the CORE refused the request, R25). -/
inductive HostOutcome (α : Type) where
  | ok (a : α)
  | failed (kind : ErrorKind)
  | noMeaning
  deriving DecidableEq, Repr

/-- The response of a CORE with parameters `c` to one request presented after reset. -/
def coreAnswer (c : Config) (i : Instr) : Option Response :=
  match step { State.reset with config := c, inputs := [.request (encode i)] } with
  | .next t => t.transcript.getLast?.bind Transaction.response
  | .fault _ => none
  | .refused _ => none

/-- DEFLATE_ENCODE (R92): compress the text's bytes, then ENCODE. -/
def deflateEncode {Text : Type} (k : Collaborators Text) (c : Config) (text : Text) :
    HostOutcome (List SymbolCode) :=
  match k.compress (k.utf8 text) with
  | none => .failed .compression
  | some z =>
    match coreAnswer c (.encode z) with
    | some (.ok (.symbolString token)) => .ok token
    | some (.fault f) => .failed f.kind
    | _ => .noMeaning

/-- The stages of DEFLATE_DECODE after the CORE's (R93): decompress, then check the UTF-8. -/
def inflateText {Text : Type} (k : Collaborators Text) (z : List Byte) : HostOutcome Text :=
  match k.decompress z with
  | none => .failed .compression
  | some x =>
    match k.utf8check x with
    | none => .failed .decoding
    | some text => .ok text

/-- DEFLATE_DECODE (R93): DECODE, decompress, check; the first failure is the caller's. -/
def deflateDecode {Text : Type} (k : Collaborators Text) (c : Config) (token : List SymbolCode) :
    HostOutcome Text :=
  match coreAnswer c (.decode token) with
  | some (.ok (.byteSequence z)) => inflateText k z
  | some (.fault f) => .failed f.kind
  | _ => .noMeaning

/-- The marker `~h` (R94), by its ASCII codes (PRESUMED, log entry 14). -/
def hexMarker : List Byte :=
  [126, 104]

/-- HEX_ENCODE (R94): the marker and the hexadecimal of the text's bytes. It does not use the CORE. -/
def hexEncode {Text : Type} (k : Collaborators Text) (text : Text) : List Byte :=
  hexMarker ++ k.hexenc (k.utf8 text)

/-- HEX_DECODE (R95): strip an optional marker, hex-decode, check the UTF-8. It does not use the CORE. -/
def hexDecode {Text : Type} (k : Collaborators Text) (x : List Byte) : HostOutcome Text :=
  match k.hexdec (if x.take 2 = hexMarker then x.drop 2 else x) with
  | none => .failed .hexFormat
  | some z =>
    match k.utf8check z with
    | none => .failed .decoding
    | some text => .ok text

/-! ### The round trips (R98) -/

/-- A text through HEX_ENCODE and HEX_DECODE. -/
def hexRoundTrip {Text : Type} (k : Collaborators Text) (text : Text) : HostOutcome Text :=
  hexDecode k (hexEncode k text)

/-- A text through DEFLATE_ENCODE and DEFLATE_DECODE; a failure of the first is the caller's. -/
def deflateRoundTrip {Text : Type} (k : Collaborators Text) (c : Config) (text : Text) : HostOutcome Text :=
  match deflateEncode k c text with
  | .ok token => deflateDecode k c token
  | .failed kind => .failed kind
  | .noMeaning => .noMeaning

/-- "for all UTF-8 strings `s`, `hexDecode(hexEncode(s)) == s`" (R98). -/
def HexRoundTrips {Text : Type} (k : Collaborators Text) : Prop :=
  ∀ text, hexRoundTrip k text = .ok text

/-- "for all UTF-8 strings `s`, `deflateDecode(deflateEncode(s)) == s`" (R98). -/
def DeflateRoundTrips {Text : Type} (k : Collaborators Text) (c : Config) : Prop :=
  ∀ text, deflateRoundTrip k c text = .ok text

end Sys2Proof.Machine
end

