-- ==== Sys2Proof/Machine/Instances.lean ====
section
/-!
DEFINITION. Several instances: "a model of several instances is the product of independent models of one"
(spec/10_state.md R24, spec/60_exceptions.md R112).
-/

namespace Sys2Proof.Machine

/-- The instances of a system, in no meaningful order: "instances have no identifiers" (R112), and a position in the
list is only how a run names one. -/
abbrev Instances := List State

/-- One instance takes a step; `none` if there is no such instance or its step stops. -/
def stepInstance (k : Nat) (xs : Instances) : Option Instances :=
  match xs[k]? with
  | none => none
  | some s =>
    match step s with
    | .next t => some (xs.set k t)
    | .fault _ => none
    | .refused _ => none

end Sys2Proof.Machine
end

