-- ==== Sys2Proof/WellFormed.lean ====
section
/-!
DEFINITION. The requests an implementation gives a meaning to. The widths of the lanes are in the types (R51), so the
one check left is the length bound of spec/20_memory.md R25.
-/

namespace Sys2Proof

/-- The request is one an implementation with parameters `c` serves: "a request with `n > NMAX` is refused" (R25). -/
def Instr.wellFormed (c : Config) : Instr → Bool
  | .v2s _ => true
  | .s2v _ => true
  | .pack3 _ _ _ => true
  | .unpack4 _ _ _ _ => true
  | .encode input => c.admits input.length
  | .decode input => c.admits input.length

end Sys2Proof
end

