-- ==== Sys2Proof/Safety.lean ====
section
/-!
DEFINITION. The terms claims are stated in: the alphabet as the table of spec/30_encoding.md R47, the codec as functions
of whole sequences, the response each request is owed, the invariant of the transcript, and the runs a host may ask for.
None of it is used by the machine.
-/

namespace Sys2Proof.Safety

open Sys2Proof.Machine

/-! ### The alphabet (R46 to R48) -/

/-- The 64 codes in value order: digits, uppercase, lowercase, `-`, `_` (R47). -/
def alphabetCodes : List Nat :=
  (List.range 10).map (· + 48) ++ (List.range 26).map (· + 65) ++ (List.range 26).map (· + 97) ++ [45, 95]

/-- A code is one of the 64 (R46, R49). -/
def legal (s : SymbolCode) : Bool :=
  alphabetCodes.contains s.toNat

/-- The code in row `v` of the table. -/
def tableCode (v : Sextet) : SymbolCode :=
  BitVec.ofNat 8 (alphabetCodes.getD v.toNat 0)

/-- The row of the table a legal code stands in (0 for a code that stands in none: used of legal codes only). -/
def tableValue (s : SymbolCode) : Sextet :=
  BitVec.ofNat 6 ((alphabetCodes.idxOf? s.toNat).getD 0)

/-- A symbol string that is valid for decoding (R58). -/
def validString (x : List SymbolCode) : Bool :=
  x.length % 4 = 0 && x.all legal

/-! ### The codec over whole sequences (R30, R43, R74, R75, R78) -/

/-- 6-bit field `k` of a group word, `c1` being field 0 (R43). -/
def valueField (w : GroupWord) (k : Nat) : Sextet :=
  w.extractLsb' (18 - 6 * k) 6

/-- 8-bit field `k` of a group word, `b1` being field 0 (R43). -/
def byteField (w : GroupWord) (k : Nat) : Byte :=
  w.extractLsb' (16 - 8 * k) 8

/-- The four symbols of three bytes. -/
def groupSymbols (b1 b2 b3 : Byte) : List SymbolCode :=
  (List.range 4).map (fun k => tableCode (valueField (b1 ++ b2 ++ b3) k))

/-- ENCODE group by group, a short last group filled with zero bytes (R74, R75). -/
def codecEncode : List Byte → List SymbolCode
  | [] => []
  | [b1] => groupSymbols b1 0 0
  | [b1, b2] => groupSymbols b1 b2 0
  | b1 :: b2 :: b3 :: rest => groupSymbols b1 b2 b3 ++ codecEncode rest

/-- The three bytes of four legal symbols. -/
def groupBytes (s1 s2 s3 s4 : SymbolCode) : List Byte :=
  (List.range 3).map (fun k => byteField (tableValue s1 ++ tableValue s2 ++ tableValue s3 ++ tableValue s4) k)

/-- DECODE group by group of a valid string (R78); an undersized tail gives nothing. -/
def codecDecode : List SymbolCode → List Byte
  | s1 :: s2 :: s3 :: s4 :: rest => groupBytes s1 s2 s3 s4 ++ codecDecode rest
  | _ => []

/-- The number of synthetic zero bytes of an input of `n` bytes, `p = (3 − n mod 3) mod 3` (R75). -/
def paddingBytes (n : Nat) : Nat :=
  (3 - n % 3) % 3

/-- The symbols DECODE examines: those of the complete groups (R79). -/
def completeGroups (x : List SymbolCode) : List SymbolCode :=
  x.take (4 * (x.length / 4))

/-! ### The response each request is owed -/

/-- DECODE's response (R78 to R80, R104): the first illegal symbol of the complete groups, then the length, then OK. -/
def decodeAnswer (x : List SymbolCode) : Response :=
  match (completeGroups x).findIdx? (fun s => !legal s) with
  | some k => .fault ⟨.alphabet, .badSymbol, k⟩
  | none =>
    if x.length % 4 = 0 then .ok (.byteSequence (codecDecode x))
    else .fault ⟨.alphabet, .badLength, 4 * (x.length / 4)⟩

/-- The response the spec owes a request: a function of the request alone (R13). -/
def answer : Instr → Response
  | .v2s v => .ok (.symbol (tableCode v))
  | .s2v s => if legal s then .ok (.value (tableValue s)) else .fault ⟨.alphabet, .badSymbol, 0⟩
  | .pack3 b1 b2 b3 =>
    .ok (.values (valueField (b1 ++ b2 ++ b3) 0) (valueField (b1 ++ b2 ++ b3) 1)
      (valueField (b1 ++ b2 ++ b3) 2) (valueField (b1 ++ b2 ++ b3) 3))
  | .unpack4 c1 c2 c3 c4 =>
    .ok (.bytes (byteField (c1 ++ c2 ++ c3 ++ c4) 0) (byteField (c1 ++ c2 ++ c3 ++ c4) 1)
      (byteField (c1 ++ c2 ++ c3 ++ c4) 2))
  | .encode input => .ok (.symbolString (codecEncode input))
  | .decode input => decodeAnswer input

/-- `s` after one more transaction: `i` was asked and `r` was answered. The parameters, the inputs still to be taken and
all earlier transactions are as in `s`: this is the whole frame of an operation (R14, R106). -/
def answered (s : State) (i : Instr) (r : Response) : State :=
  { s with transcript := s.transcript ++ [{ request := i, response := some r }] }

/-! ### The invariant -/

/-- A transaction that stands as the spec says: the request was one to be served, and its response, if it was not
abandoned (R117), is the one owed. -/
def transactionRight (c : Config) (t : Transaction) : Prop :=
  t.request.wellFormed c = true ∧ ∀ r, t.response = some r → r = answer t.request

/-- Every transaction of the transcript stands as the spec says: no earlier request, fault or reset has told on a later
response (R13, R21, R107). -/
def Inv (s : State) : Prop :=
  ∀ t ∈ s.transcript, transactionRight s.config t

/-! ### Runs a host may ask for -/

/-- An input with a meaning: a request that decodes and is not too long (R25, R50, R51), or a reset. -/
def meaningful (c : Config) : HostInput → Prop
  | .request r => ∃ i, decode r = .ok i ∧ i.wellFormed c = true
  | .requestThenReset r => ∃ i, decode r = .ok i ∧ i.wellFormed c = true
  | .reset => True

/-- What an input leaves in the transcript. -/
def recordOf : HostInput → List Transaction
  | .request r =>
    match decode r with
    | .ok i => [⟨i, some (answer i)⟩]
    | .error _ => []
  | .requestThenReset r =>
    match decode r with
    | .ok i => [⟨i, none⟩]
    | .error _ => []
  | .reset => []

/-- A bit string written in zeros and ones, most significant first. -/
def bits (x : List Nat) : Bits :=
  x.map (· == 1)

/-- The 16 codes of the lowercase hexadecimal digits in value order, `0` to `9` and `a` to `f` (R91; log entries 14,
19). -/
def hexCodes : List Nat :=
  (List.range 10).map (· + 48) ++ (List.range 6).map (· + 97)

/-- A step that is safe: it goes on, or it refuses a request that has no meaning. It never stops with a machine fault. -/
def safeOutcome : Host.Outcome State Fault Refusal → Prop
  | .next _ => True
  | .fault _ => False
  | .refused _ => True

end Sys2Proof.Safety
end

