-- ==== Sys2Proof/Certificates/Slice0/Obligations.lean ====
section
/-!
DEFINITION. The statements for the provers, by subject; OBLIGATIONS.json numbers them. A response is written out in
`answered s i r`, the state `s` with one more transaction and nothing else changed, so a conclusion
`exec i s = .next (answered s i r)` says that the operation completes, what it answers, and what it leaves unchanged.
-/

open Sys2Proof Sys2Proof.Machine Sys2Proof.Safety

/-! ### Request words -/

/-- One word of each operation, bit by bit from the layouts of R42 (the words of `95_test_vectors.md` P1, P2 and P3). -/
def Obligations.DecoderReadsTheSpecsRequestWords : Prop :=
  decode (bits [0,0,0, 0,1,0,0,1,1]) = .ok (.v2s 19) ∧
  decode (bits [0,0,1, 0,1,0,0,1,0,1,0]) = .ok (.s2v 0x4A) ∧
  decode (bits [0,1,0, 0,1,0,0,1,1,0,1, 0,1,1,0,0,0,0,1, 0,1,1,0,1,1,1,0]) = .ok (.pack3 0x4D 0x61 0x6E) ∧
  decode (bits [0,1,1, 0,1,0,0,1,1, 0,1,0,1,1,0, 0,0,0,1,0,1, 1,0,1,1,1,0]) = .ok (.unpack4 19 22 5 46) ∧
  decode (bits [1,0,0, 0,1,0,0,1,0,0,0, 0,1,1,0,0,1,0,1]) = .ok (.encode [0x48, 0x65]) ∧
  decode (bits [1,0,1, 0,1,0,0,1,0,1,0, 0,1,0,0,1,1,0,1]) = .ok (.decode [0x4A, 0x4D])

/-- R41, R42: no bit of a request is dropped by the decoder, for every operation and every operand. -/
def Obligations.DecodeOfEncodeIsTheOperation : Prop :=
  ∀ i : Instr, decode (encode i) = .ok i

/-- R41, R42: every bit string the decoder reads is the request word of what it reads; no two words share a meaning. -/
def Obligations.EncodeOfDecodeIsTheRequest : Prop :=
  ∀ (r : Bits) (i : Instr), decode r = .ok i → encode i = r

/-- R41, R42: `op` is the top 3 bits with the value of the operation map, and the request is as wide as its layout. -/
def Obligations.RequestWordHasItsSelectAndWidth : Prop :=
  (∀ v, (encode (.v2s v)).take 3 = bits [0,0,0] ∧ (encode (.v2s v)).length = 9) ∧
  (∀ s, (encode (.s2v s)).take 3 = bits [0,0,1] ∧ (encode (.s2v s)).length = 11) ∧
  (∀ b1 b2 b3, (encode (.pack3 b1 b2 b3)).take 3 = bits [0,1,0] ∧ (encode (.pack3 b1 b2 b3)).length = 27) ∧
  (∀ c1 c2 c3 c4, (encode (.unpack4 c1 c2 c3 c4)).take 3 = bits [0,1,1] ∧
    (encode (.unpack4 c1 c2 c3 c4)).length = 27) ∧
  (∀ x, (encode (.encode x)).take 3 = bits [1,0,0] ∧ (encode (.encode x)).length = 3 + 8 * x.length) ∧
  (∀ x, (encode (.decode x)).take 3 = bits [1,0,1] ∧ (encode (.decode x)).length = 3 + 8 * x.length)

/-- R50: a request whose `op` is 110 or 111 is refused by name, whatever follows, and gets no response. -/
def Obligations.ReservedSelectIsRefusedByName : Prop :=
  ∀ (s : State) (low : Bool) (operands : Bits) (rest : List HostInput),
    s.inputs = .request (true :: true :: low :: operands) :: rest →
      step s = .refused (.reservedSelect (if low then 7 else 6))

/-- A bit string that is no request word and has no reserved `op` is refused as malformed. This is the model's reading
of R51 and U1 (log entry 6). -/
def Obligations.BitStringOfNoFormIsRefused : Prop :=
  ∀ (s : State) (r : Bits) (rest : List HostInput),
    s.inputs = .request r :: rest →
    (∀ i, encode i ≠ r) →
    (r.length < 3 ∨ r.take 2 ≠ bits [1,1]) →
      step s = .refused .malformedRequest

/-- R42: the word of an OK response is as wide as its row says. -/
def Obligations.ResponseWordHasItsWidth : Prop :=
  ∀ (i : Instr) (s : State) (r : Result), exec i s = .next (answered s i (.ok r)) →
    (responseWord r).length =
      match i with
      | .v2s _ => 8
      | .s2v _ => 6
      | .pack3 _ _ _ => 24
      | .unpack4 _ _ _ _ => 24
      | .encode x => 8 * (4 * ((x.length + 2) / 3))
      | .decode x => 8 * (3 * (x.length / 4))

/-! ### The step -/

/-- R14: a step takes the oldest request and runs the operation it decodes to. -/
def Obligations.StepRunsTheDecodedRequest : Prop :=
  ∀ (s : State) (r : Bits) (rest : List HostInput) (i : Instr),
    s.inputs = .request r :: rest → decode r = .ok i → step s = exec i { s with inputs := rest }

/-- The word of a row of the opcode table, placed as the next request, is served as the operation the decoder reads from
it. The placing is the model's (log entries 5 and 11). -/
def Obligations.PlacedTableWordIsServedNext : Prop :=
  ∀ (s : State) (nbits w : Nat) (i : Instr), decodeTableWord nbits w = some i →
    step (s.withFetchWord nbits w) = exec i s

/-- An instance that is presented nothing stays as it is. This is the model's reading of R114 (log entry 3). -/
def Obligations.IdleInstanceStaysIdle : Prop :=
  ∀ s : State, s.inputs = [] → step s = .next s

/-- R23: after reset no operation is in progress and no response is pending. That there is no length bound is the
default of R9 (log entry 4). -/
def Obligations.ResetHoldsNothing : Prop :=
  State.reset.inputs = [] ∧ State.reset.transcript = [] ∧ State.reset.config.nmax = none

/-- R116: a reset of an idle instance sets nothing; it is only taken from the host's inputs. -/
def Obligations.ResetOfAnIdleInstanceChangesNothing : Prop :=
  ∀ (s : State) (rest : List HostInput), s.inputs = .reset :: rest → step s = .next { s with inputs := rest }

/-- R117: a reset during an operation abandons it with no response; the request stands in the transcript unchanged, and
presented again it gets the response it gets from any instance with the same parameters. -/
def Obligations.ResetDuringAnOperationAbandonsIt : Prop :=
  ∀ (s : State) (r : Bits) (rest : List HostInput) (i : Instr),
    s.inputs = .requestThenReset r :: .request r :: rest → decode r = .ok i → i.wellFormed s.config = true →
      ∃ (t : State) (answerOfI : Response),
        step s = .next t ∧
        t = { s with inputs := .request r :: rest,
                     transcript := s.transcript ++ [{ request := i, response := none }] } ∧
        step t = .next (answered { t with inputs := rest } i answerOfI) ∧
        ∀ u : State, u.config = s.config → u.inputs = [.request r] →
          step u = .next (answered { u with inputs := [] } i answerOfI)

/-- Every step keeps the parameters, takes one input at most, and only adds to the transcript. -/
def Obligations.StepOnlyAddsToTheTranscript : Prop :=
  ∀ s t : State, step s = .next t →
    t.config = s.config ∧ t.inputs = s.inputs.tail ∧
      ∃ more, t.transcript = s.transcript ++ more ∧ more.length ≤ 1

/-- R36, R88, R115: whatever the inputs, no step stops with a machine fault; no buffer element is read that is not
there. -/
def Obligations.NoStepReadsAMissingElement : Prop :=
  ∀ s : State, safeOutcome (step s)

/-! ### The machine as a whole -/

/-- R21, R127: every operation an implementation takes answers once, with a response that its request alone decides. -/
def Obligations.ResponseIsAFunctionOfTheRequest : Prop :=
  ∀ i : Instr, ∃ r : Response, ∀ s : State, i.wellFormed s.config = true → exec i s = .next (answered s i r)

/-- R16, R115: the status of every response of V2S, PACK3, UNPACK4 and ENCODE is OK. -/
def Obligations.FourOperationsNeverFault : Prop :=
  ∀ (s : State) (r : Response),
    (∀ v, exec (.v2s v) s = .next (answered s (.v2s v) r) → statusOf r = .ok) ∧
    (∀ b1 b2 b3, exec (.pack3 b1 b2 b3) s = .next (answered s (.pack3 b1 b2 b3) r) → statusOf r = .ok) ∧
    (∀ c1 c2 c3 c4, exec (.unpack4 c1 c2 c3 c4) s = .next (answered s (.unpack4 c1 c2 c3 c4) r) →
      statusOf r = .ok) ∧
    (∀ x, exec (.encode x) s = .next (answered s (.encode x) r) → statusOf r = .ok)

/-- R16, R60, R79, R80: the status of a response of S2V is FAULT exactly when the operand is none of the 64 codes, and of
DECODE exactly when the input is no valid symbol string; else it is OK. -/
def Obligations.StatusIsFaultExactlyOnIllegalSymbols : Prop :=
  (∀ (c : SymbolCode) (s : State), ∃ r, exec (.s2v c) s = .next (answered s (.s2v c) r) ∧
    (c.toNat ∉ alphabetCodes → statusOf r = .fault) ∧ (c.toNat ∈ alphabetCodes → statusOf r = .ok)) ∧
  (∀ (x : List SymbolCode) (s : State), s.config.admits x.length = true →
    ∃ r, exec (.decode x) s = .next (answered s (.decode x) r) ∧
      (validString x = false → statusOf r = .fault) ∧ (validString x = true → statusOf r = .ok))

/-- R100 to R103: every FAULT response is the alphabet error, `kind` 3 and `cause` 1 or 2, with the index its rule gives:
0 for S2V, the first illegal element of the complete groups for BAD_SYMBOL of DECODE, and for BAD_LENGTH the start of the
undersized group, every element before it being legal. `cause` and `index` are the spec's own choices (D7, D8, log
entry 8). -/
def Obligations.EveryFaultIsTheAlphabetError : Prop :=
  ∀ (i : Instr) (s : State) (f : FaultReport), exec i s = .next (answered s i (.fault f)) →
    f.kind = .alphabet ∧ kindCode f.kind = 3 ∧
      ((f.cause = .badSymbol ∧ causeCode f.cause = 1 ∧
          ((∃ c, i = .s2v c ∧ legal c = false ∧ f.index = 0) ∨
           (∃ x c, i = .decode x ∧ f.index < 4 * (x.length / 4) ∧ x[f.index]? = some c ∧ legal c = false ∧
              ∀ j d, j < f.index → x[j]? = some d → legal d = true))) ∨
       (f.cause = .badLength ∧ causeCode f.cause = 2 ∧
          ∃ x, i = .decode x ∧ x.length % 4 ≠ 0 ∧ f.index = 4 * (x.length / 4) ∧
            ∀ j d, j < f.index → x[j]? = some d → legal d = true))

/-- Every step keeps the invariant: each transaction's response is the one the spec owes its request. -/
def Obligations.StepKeepsTranscriptRight : Prop :=
  ∀ s t : State, Inv s → step s = .next t → Inv t

/-- The invariant holds after reset. -/
def Obligations.ResetTranscriptIsRight : Prop :=
  Inv State.reset

/-- R13, R37, R107: over any queue of inputs that have a meaning, one step per input answers each request with the
response owed to it alone, in order, faults and resets among them, and takes every input. -/
def Obligations.RunAnswersEachRequestByItself : Prop :=
  ∀ s : State, (∀ x ∈ s.inputs, meaningful s.config x) →
    Host.Core.run Sys2Proof.core s.inputs.length s =
      .next { s with inputs := [], transcript := s.transcript ++ s.inputs.flatMap recordOf }

/-- R24, R112: a step of one instance leaves every other as it was, and steps of two instances give the same in either
order. -/
def Obligations.InstancesDoNotAffectEachOther : Prop :=
  ∀ (xs ys zs : Instances) (j k : Nat), j ≠ k →
    stepInstance j xs = some ys → stepInstance k ys = some zs →
      (∀ m, m ≠ j → ys[m]? = xs[m]?) ∧ ∃ ws, stepInstance k xs = some ws ∧ stepInstance j ws = some zs

/-- R25: with a bound an ENCODE or DECODE of `n > NMAX` elements is refused; with `n ≤ NMAX`, or no bound, it is
served. `admits` says just that of `n`. -/
def Obligations.InputLongerThanTheBoundIsRefused : Prop :=
  (∀ (s : State) (bound : Nat) (x : List Byte), s.config.nmax = some bound → bound < x.length →
    exec (.encode x) s = .refused (.inputTooLong x.length) ∧
    exec (.decode x) s = .refused (.inputTooLong x.length)) ∧
  (∀ (s : State) (x : List Byte), (s.config.nmax = none ∨ ∃ bound, s.config.nmax = some bound ∧ x.length ≤ bound) →
    (∃ r, exec (.encode x) s = .next (answered s (.encode x) r)) ∧
    (∃ r, exec (.decode x) s = .next (answered s (.decode x) r))) ∧
  (∀ (c : Config) (n : Nat), c.admits n = true ↔ (c.nmax = none ∨ ∃ bound, c.nmax = some bound ∧ n ≤ bound))

/-! ### Buffers -/

/-- R26, R27: what was written is read, and every other index reads as before. -/
def Obligations.BufferReadsWhatWasWritten : Prop :=
  ∀ (m : Memory) (j : Nat) (v : Byte), m.wf →
    (m.write j v).read j = some v ∧ ∀ i, i ≠ j → (m.write j v).read i = m.read i

/-- A buffer write keeps the canonical form, and canonical buffers with the same elements are the same data. -/
def Obligations.BufferFormIsCanonical : Prop :=
  (∀ (m : Memory) (j : Nat) (v : Byte), m.wf → (m.write j v).wf) ∧
  (∀ x : List Byte, (Memory.load 0 x).wf) ∧
  (∀ m n : Memory, m.wf → n.wf → (∀ i, m.read i = n.read i) → m = n)

/-! ### Symbol Table -/

/-- R59: V2S answers OK with the code the pseudocode gives, for every 6-bit value; its request and response words. -/
def Obligations.V2sAnswersTheSymbolCode : Prop :=
  ∀ (v : Sextet) (s : State), ∃ c : SymbolCode,
    exec (.v2s v) s = .next (answered s (.v2s v) (.ok (.symbol c))) ∧
    c.toNat =
      (if v.toNat ≤ 9 then v.toNat + 48
      else if v.toNat ≤ 35 then v.toNat + 55
      else if v.toNat ≤ 61 then v.toNat + 61
      else if v.toNat = 62 then 45
      else 95) ∧
    encode (.v2s v) = bits [0,0,0] ++ bitsOf v ∧ responseWord (.symbol c) = bitsOf c

/-- R60: S2V follows the source's tests in the source's order, for every code; a code none takes is the
fault; its request and response words. -/
def Obligations.S2vFollowsTheOrderedTests : Prop :=
  ∀ (c : SymbolCode) (s : State),
    exec (.s2v c) s = .next (answered s (.s2v c)
      (if c.toNat = 95 then .ok (.value 63)
       else if c.toNat = 45 then .ok (.value 62)
       else if 97 ≤ c.toNat ∧ c.toNat ≤ 122 then .ok (.value (BitVec.ofNat 6 (c.toNat - 61)))
       else if 65 ≤ c.toNat ∧ c.toNat ≤ 90 then .ok (.value (BitVec.ofNat 6 (c.toNat - 55)))
       else if 48 ≤ c.toNat ∧ c.toNat ≤ 57 then .ok (.value (BitVec.ofNat 6 (c.toNat - 48)))
       else .fault ⟨.alphabet, .badSymbol, 0⟩)) ∧
    encode (.s2v c) = bits [0,0,1] ++ bitsOf c ∧ ∀ v, responseWord (.value v) = bitsOf v

/-- R48: S2V completes with a value on each of the 64 codes of the table: the value in whose row the code stands. -/
def Obligations.S2vCompletesOnTheTable : Prop :=
  ∀ (c : SymbolCode) (s : State), c.toNat ∈ alphabetCodes →
    ∃ v : Sextet, alphabetCodes[v.toNat]? = some c.toNat ∧
      exec (.s2v c) s = .next (answered s (.s2v c) (.ok (.value v)))

/-- R49, R102: S2V answers AlphabetError(BAD_SYMBOL, 0) and no value on every code outside the table. -/
def Obligations.S2vFaultsOutsideTheTable : Prop :=
  ∀ (c : SymbolCode) (s : State), c.toNat ∉ alphabetCodes →
    exec (.s2v c) s = .next (answered s (.s2v c) (.fault ⟨.alphabet, .badSymbol, 0⟩))

/-- R61, alphabet totality: S2V of the result of V2S answers OK with the value. -/
def Obligations.S2vGivesBackWhatV2sWasGiven : Prop :=
  ∀ (v : Sextet) (s : State), ∃ c : SymbolCode,
    exec (.v2s v) s = .next (answered s (.v2s v) (.ok (.symbol c))) ∧
    exec (.s2v c) s = .next (answered s (.s2v c) (.ok (.value v)))

/-- R62: V2S is a bijection onto the 64 codes S2V accepts, and S2V is its inverse. -/
def Obligations.SymbolTableIsABijection : Prop :=
  (∀ (v w : Sextet) (s : State) (c : SymbolCode),
    exec (.v2s v) s = .next (answered s (.v2s v) (.ok (.symbol c))) →
    exec (.v2s w) s = .next (answered s (.v2s w) (.ok (.symbol c))) → v = w) ∧
  (∀ (c : SymbolCode) (s : State), legal c = true → ∃ v : Sextet,
    exec (.s2v c) s = .next (answered s (.s2v c) (.ok (.value v))) ∧
    exec (.v2s v) s = .next (answered s (.v2s v) (.ok (.symbol c)))) ∧
  ((List.range 256).countP (fun c => legal (BitVec.ofNat 8 c)) = 64)

/-! ### Bit Packer -/

/-- R67: PACK3 answers OK with the source's formulas, evaluated on natural numbers; its request and response words. -/
def Obligations.Pack3AnswersTheFormulas : Prop :=
  ∀ (b1 b2 b3 : Byte) (s : State), ∃ c1 c2 c3 c4 : Sextet,
    exec (.pack3 b1 b2 b3) s = .next (answered s (.pack3 b1 b2 b3) (.ok (.values c1 c2 c3 c4))) ∧
    c1.toNat = b1.toNat >>> 2 ∧
    c2.toNat = ((b1.toNat &&& 0x03) <<< 4) ||| (b2.toNat >>> 4) ∧
    c3.toNat = ((b2.toNat &&& 0x0F) <<< 2) ||| (b3.toNat >>> 6) ∧
    c4.toNat = b3.toNat &&& 0x3F ∧
    encode (.pack3 b1 b2 b3) = bits [0,1,0] ++ bitsOf b1 ++ bitsOf b2 ++ bitsOf b3 ∧
    responseWord (.values c1 c2 c3 c4) = bitsOf c1 ++ bitsOf c2 ++ bitsOf c3 ++ bitsOf c4

/-- R68: UNPACK4 answers OK with the source's formulas, evaluated on natural numbers; its request and response words. -/
def Obligations.Unpack4AnswersTheFormulas : Prop :=
  ∀ (c1 c2 c3 c4 : Sextet) (s : State), ∃ b1 b2 b3 : Byte,
    exec (.unpack4 c1 c2 c3 c4) s = .next (answered s (.unpack4 c1 c2 c3 c4) (.ok (.bytes b1 b2 b3))) ∧
    b1.toNat = (c1.toNat <<< 2) ||| ((c2.toNat >>> 4) &&& 0x03) ∧
    b2.toNat = ((c2.toNat <<< 4) &&& 0xF0) ||| ((c3.toNat >>> 2) &&& 0x0F) ∧
    b3.toNat = ((c3.toNat <<< 6) &&& 0xC0) ||| (c4.toNat &&& 0x3F) ∧
    encode (.unpack4 c1 c2 c3 c4) = bits [0,1,1] ++ bitsOf c1 ++ bitsOf c2 ++ bitsOf c3 ++ bitsOf c4 ∧
    responseWord (.bytes b1 b2 b3) = bitsOf b1 ++ bitsOf b2 ++ bitsOf b3

/-- R44: the four values are these bit slices of the three bytes. -/
def Obligations.Pack3AnswersTheBitSlices : Prop :=
  ∀ (b1 b2 b3 : Byte) (s : State),
    exec (.pack3 b1 b2 b3) s = .next (answered s (.pack3 b1 b2 b3)
      (.ok (.values
        (b1.extractLsb' 2 6)
        (b1.extractLsb' 0 2 ++ b2.extractLsb' 4 4)
        (b2.extractLsb' 0 4 ++ b3.extractLsb' 6 2)
        (b3.extractLsb' 0 6))))

/-- R45: the three bytes are these bit slices of the four values. -/
def Obligations.Unpack4AnswersTheBitSlices : Prop :=
  ∀ (c1 c2 c3 c4 : Sextet) (s : State),
    exec (.unpack4 c1 c2 c3 c4) s = .next (answered s (.unpack4 c1 c2 c3 c4)
      (.ok (.bytes
        (c1 ++ c2.extractLsb' 4 2)
        (c2.extractLsb' 0 4 ++ c3.extractLsb' 2 4)
        (c3.extractLsb' 0 2 ++ c4))))

/-- R43: PACK3 takes the byte view of a group word to its 6-bit view and UNPACK4 does the reverse; each response word is
the group word itself. -/
def Obligations.PackerKeepsTheGroupWord : Prop :=
  ∀ (w : GroupWord) (s : State),
    (let ask : Instr := .pack3 (byteField w 0) (byteField w 1) (byteField w 2)
     let got : Result := .values (valueField w 0) (valueField w 1) (valueField w 2) (valueField w 3)
     exec ask s = .next (answered s ask (.ok got)) ∧ responseWord got = bitsOf w) ∧
    (let ask : Instr := .unpack4 (valueField w 0) (valueField w 1) (valueField w 2) (valueField w 3)
     let got : Result := .bytes (byteField w 0) (byteField w 1) (byteField w 2)
     exec ask s = .next (answered s ask (.ok got)) ∧ responseWord got = bitsOf w)

/-- R69, packer inverse. -/
def Obligations.Unpack4GivesBackWhatPack3WasGiven : Prop :=
  ∀ (b1 b2 b3 : Byte) (s : State), ∃ c1 c2 c3 c4 : Sextet,
    exec (.pack3 b1 b2 b3) s = .next (answered s (.pack3 b1 b2 b3) (.ok (.values c1 c2 c3 c4))) ∧
    exec (.unpack4 c1 c2 c3 c4) s = .next (answered s (.unpack4 c1 c2 c3 c4) (.ok (.bytes b1 b2 b3)))

/-- R71, the other direction. -/
def Obligations.Pack3GivesBackWhatUnpack4WasGiven : Prop :=
  ∀ (c1 c2 c3 c4 : Sextet) (s : State), ∃ b1 b2 b3 : Byte,
    exec (.unpack4 c1 c2 c3 c4) s = .next (answered s (.unpack4 c1 c2 c3 c4) (.ok (.bytes b1 b2 b3))) ∧
    exec (.pack3 b1 b2 b3) s = .next (answered s (.pack3 b1 b2 b3) (.ok (.values c1 c2 c3 c4)))

/-- R73: what zero bytes do to a packed group. -/
def Obligations.ZeroBytesClearTheirBits : Prop :=
  (∀ (b1 b2 : Byte) (s : State), ∃ c1 c2 c3 : Sextet,
    exec (.pack3 b1 b2 0) s = .next (answered s (.pack3 b1 b2 0) (.ok (.values c1 c2 c3 0))) ∧
    c3.toNat = (b2.toNat &&& 0x0F) <<< 2 ∧ c3.toNat % 4 = 0) ∧
  (∀ (b1 : Byte) (s : State), ∃ c1 c2 : Sextet,
    exec (.pack3 b1 0 0) s = .next (answered s (.pack3 b1 0 0) (.ok (.values c1 c2 0 0))) ∧
    c2.toNat = (b1.toNat &&& 0x03) <<< 4 ∧ c2.toNat % 16 = 0)

/-! ### Custom Codec -/

/-- R74, R75: ENCODE answers OK; symbol `k` of group `g` of `OUT` is the table's code of 6-bit field `k` of the group
word of bytes `3g`, `3g + 1`, `3g + 2`, a missing byte being zero; its request and response words. `ceil(n/3)` is
`(n + 2) / 3`. -/
def Obligations.EncodeAnswersGroupByGroup : Prop :=
  ∀ (x : List Byte) (s : State), s.config.admits x.length = true → ∃ out : List SymbolCode,
    exec (.encode x) s = .next (answered s (.encode x) (.ok (.symbolString out))) ∧
    out.length = 4 * ((x.length + 2) / 3) ∧
    (∀ g k, g < (x.length + 2) / 3 → k < 4 →
      out[4 * g + k]? =
        some (tableCode (valueField (x.getD (3 * g) 0 ++ x.getD (3 * g + 1) 0 ++ x.getD (3 * g + 2) 0) k))) ∧
    encode (.encode x) = bits [1,0,0] ++ x.flatMap bitsOf ∧ responseWord (.symbolString out) = out.flatMap bitsOf

/-- R77: the length of ENCODE's output, a multiple of 4, and that every output is a valid symbol string. -/
def Obligations.EncodeOutputIsAValidStringOfItsLength : Prop :=
  ∀ (x : List Byte) (s : State), s.config.admits x.length = true → ∃ out : List SymbolCode,
    exec (.encode x) s = .next (answered s (.encode x) (.ok (.symbolString out))) ∧
    out.length = 4 * ((x.length + 2) / 3) ∧ out.length % 4 = 0 ∧ validString out = true

/-- R76, R82: the empty input gives the empty output, both ways, whatever the bound. -/
def Obligations.EmptyInputGivesEmptyOutput : Prop :=
  ∀ s : State,
    exec (.encode []) s = .next (answered s (.encode []) (.ok (.symbolString []))) ∧
    exec (.decode []) s = .next (answered s (.decode []) (.ok (.byteSequence [])))

/-- R86: the symbols of a short group that padding fixes: with 2 bytes left the 4th symbol is `0` and the 3rd has a value
that is a multiple of 4; with 1 byte left the 3rd and 4th are `0` and the 2nd has value 0, 16, 32 or 48. -/
def Obligations.PaddingFixesSymbolsOfAShortGroup : Prop :=
  ∀ (x : List Byte) (s : State), s.config.admits x.length = true → ∃ out : List SymbolCode,
    exec (.encode x) s = .next (answered s (.encode x) (.ok (.symbolString out))) ∧
    (x.length % 3 = 2 → out[4 * (x.length / 3) + 3]? = some 48 ∧
      ∃ c, out[4 * (x.length / 3) + 2]? = some c ∧
        c.toNat ∈ [48, 52, 56, 67, 71, 75, 79, 83, 87, 97, 101, 105, 109, 113, 117, 121]) ∧
    (x.length % 3 = 1 → out[4 * (x.length / 3) + 3]? = some 48 ∧ out[4 * (x.length / 3) + 2]? = some 48 ∧
      ∃ c, out[4 * (x.length / 3) + 1]? = some c ∧ c.toNat ∈ [48, 71, 87, 109])

/-- R58: DECODE answers OK exactly on the valid symbol strings, and every output of ENCODE is one. -/
def Obligations.DecodeAcceptsExactlyTheValidStrings : Prop :=
  (∀ (x : List SymbolCode) (s : State), s.config.admits x.length = true →
    ((∃ r, exec (.decode x) s = .next (answered s (.decode x) (.ok r))) ↔
      (x.length % 4 = 0 ∧ ∀ c ∈ x, c.toNat ∈ alphabetCodes))) ∧
  (∀ (x : List Byte) (s : State) (out : List SymbolCode),
    exec (.encode x) s = .next (answered s (.encode x) (.ok (.symbolString out))) →
      out.length % 4 = 0 ∧ ∀ c ∈ out, c.toNat ∈ alphabetCodes)

/-- R78, R81: on a valid string DECODE answers OK with `3 × (n/4)` bytes; byte `k` of group `g` is 8-bit field `k` of the
group word of the values of symbols `4g` to `4g + 3`. -/
def Obligations.DecodeAnswersGroupByGroup : Prop :=
  ∀ (x : List SymbolCode) (s : State), s.config.admits x.length = true → validString x = true →
    ∃ out : List Byte,
      exec (.decode x) s = .next (answered s (.decode x) (.ok (.byteSequence out))) ∧
      out.length = 3 * (x.length / 4) ∧
      ∀ g k, g < x.length / 4 → k < 3 →
        out[3 * g + k]? =
          some (byteField (tableValue (x.getD (4 * g) 0) ++ tableValue (x.getD (4 * g + 1) 0) ++
            tableValue (x.getD (4 * g + 2) 0) ++ tableValue (x.getD (4 * g + 3) 0)) k)

/-- R80, R104: an illegal symbol in a complete group, with none before it, is reported at its position, whatever the
length and whatever follows, and nothing else is answered. -/
def Obligations.DecodeReportsTheFirstIllegalSymbol : Prop :=
  ∀ (x : List SymbolCode) (s : State) (k : Nat) (c : SymbolCode), s.config.admits x.length = true →
    k < 4 * (x.length / 4) → x[k]? = some c → c.toNat ∉ alphabetCodes →
    (∀ j d, j < k → x[j]? = some d → d.toNat ∈ alphabetCodes) →
      exec (.decode x) s = .next (answered s (.decode x) (.fault ⟨.alphabet, .badSymbol, k⟩))

/-- R79, R103, R104: a length that is no multiple of 4 is reported at the start of the undersized group when every symbol
of the complete groups is legal; the undersized group is not examined. -/
def Obligations.DecodeReportsTheMalformedLength : Prop :=
  ∀ (x : List SymbolCode) (s : State), s.config.admits x.length = true → x.length % 4 ≠ 0 →
    (∀ j d, j < 4 * (x.length / 4) → x[j]? = some d → d.toNat ∈ alphabetCodes) →
      exec (.decode x) s = .next (answered s (.decode x) (.fault ⟨.alphabet, .badLength, 4 * (x.length / 4)⟩))

/-- R83: DECODE of ENCODE gives the bytes back with `p` zero bytes after them. -/
def Obligations.DecodeOfEncodeAppendsTheSyntheticZeros : Prop :=
  ∀ (x : List Byte) (s : State), s.config.admits x.length = true →
    s.config.admits (4 * ((x.length + 2) / 3)) = true → ∃ out : List SymbolCode,
      exec (.encode x) s = .next (answered s (.encode x) (.ok (.symbolString out))) ∧
      exec (.decode out) s = .next (answered s (.decode out)
        (.ok (.byteSequence (x ++ List.replicate ((3 - x.length % 3) % 3) 0))))

/-- R83: an input and the same input with up to `p` zero bytes after it have one encoding. -/
def Obligations.ZeroExtensionsShareAnEncoding : Prop :=
  ∀ (x : List Byte) (s : State) (k : Nat), k ≤ (3 - x.length % 3) % 3 → s.config.admits (x.length + k) = true →
    ∃ out : List SymbolCode,
      exec (.encode x) s = .next (answered s (.encode x) (.ok (.symbolString out))) ∧
      exec (.encode (x ++ List.replicate k 0)) s =
        .next (answered s (.encode (x ++ List.replicate k 0)) (.ok (.symbolString out)))

/-- R83: on inputs of one length ENCODE is injective. -/
def Obligations.EncodeIsInjectiveOnEachLength : Prop :=
  ∀ (x y : List Byte) (s : State) (out : List SymbolCode), x.length = y.length →
    exec (.encode x) s = .next (answered s (.encode x) (.ok (.symbolString out))) →
    exec (.encode y) s = .next (answered s (.encode y) (.ok (.symbolString out))) → x = y

/-- R84: ENCODE of DECODE of a valid symbol string is that string. -/
def Obligations.EncodeOfDecodeIsTheValidString : Prop :=
  ∀ (x : List SymbolCode) (s : State), validString x = true → s.config.admits x.length = true →
    ∃ out : List Byte,
      exec (.decode x) s = .next (answered s (.decode x) (.ok (.byteSequence out))) ∧
      exec (.encode out) s = .next (answered s (.encode out) (.ok (.symbolString x)))

/-- R84: DECODE is injective on the strings it accepts. -/
def Obligations.DecodeIsInjectiveOnValidStrings : Prop :=
  ∀ (x y : List SymbolCode) (s : State) (r : Result),
    exec (.decode x) s = .next (answered s (.decode x) (.ok r)) →
    exec (.decode y) s = .next (answered s (.decode y) (.ok r)) → x = y

/-! ### The host's compositions -/

/-- R98 from R83 and R90: under the two assumed properties of the deflate collaborator, DEFLATE_DECODE undoes
DEFLATE_ENCODE on every text that compresses, with every bound that admits the compressed stream and its token. Where
there is no bound and every text compresses, that is the source's property of all texts. -/
def Obligations.DeflateRoundTripsThroughTheCodec : Prop :=
  ∀ (Text : Type) (k : Collaborators Text) (c : Config), k.DecompressUndoesCompress → k.ToleratesZeros →
    (∀ text z, k.compress (k.utf8 text) = some z →
      c.admits z.length = true → c.admits (4 * ((z.length + 2) / 3)) = true → ∃ token,
        deflateEncode k c text = .ok token ∧ deflateDecode k c token = .ok text ∧ deflateRoundTrip k c text = .ok text) ∧
    (c.nmax = none → (∀ text, k.compress (k.utf8 text) ≠ none) → DeflateRoundTrips k c)

/-- R93: the stages of DEFLATE_DECODE in their order, with every bound that admits the token. A token that is no valid
symbol string is the alphabet error, whatever the collaborators would do. A valid one goes to the decompressor as
DECODE's whole output; its failure is the compression error; bytes of no text are the decoding error, and bytes of a text
give it. -/
def Obligations.DeflateDecodeTriesTheCodecFirst : Prop :=
  ∀ (Text : Type) (k : Collaborators Text) (c : Config) (token : List SymbolCode), c.admits token.length = true →
    (validString token = false → deflateDecode k c token = .failed .alphabet) ∧
    (validString token = true →
      (k.decompress (codecDecode token) = none → deflateDecode k c token = .failed .compression) ∧
      ∀ x, k.decompress (codecDecode token) = some x →
        ((∀ text, k.utf8 text ≠ x) → deflateDecode k c token = .failed .decoding) ∧
        (∀ text, k.utf8 text = x → deflateDecode k c token = .ok text))

/-- R94, R95, R98: HEX_DECODE undoes HEX_ENCODE on every text, by the contract of R91 alone (log entries 19, 20). -/
def Obligations.HexRoundTripsUnderItsMarker : Prop :=
  ∀ (Text : Type) (k : Collaborators Text), HexRoundTrips k

/-- R92: DEFLATE_ENCODE gives ENCODE's token of the compressed bytes, with every bound that admits them; its only failure
is the compressor's. -/
def Obligations.DeflateEncodeFailsOnlyInTheCompressor : Prop :=
  ∀ (Text : Type) (k : Collaborators Text) (c : Config) (text : Text),
    (k.compress (k.utf8 text) = none → deflateEncode k c text = .failed .compression) ∧
    (∀ z, k.compress (k.utf8 text) = some z → c.admits z.length = true →
      deflateEncode k c text = .ok (codecEncode z))

/-- R94, R91: HEX_ENCODE answers the marker and two lowercase digits for each byte of the text, the high digit first.
The codes of the marker and of the digits are ASCII's (log entries 14, 19). -/
def Obligations.HexEncodeAnswersLowercaseHex : Prop :=
  ∀ (Text : Type) (k : Collaborators Text) (text : Text),
    (hexEncode k text).length = 2 + 2 * (k.utf8 text).length ∧
    (hexEncode k text)[0]? = some 126 ∧ (hexEncode k text)[1]? = some 104 ∧
    ∀ j b, (k.utf8 text)[j]? = some b →
      ((hexEncode k text)[2 + 2 * j]?).map BitVec.toNat = hexCodes[b.toNat / 16]? ∧
      ((hexEncode k text)[2 + 2 * j + 1]?).map BitVec.toNat = hexCodes[b.toNat % 16]?

/-- R95, R99: HEX_DECODE fails with the hex-format error on every string of odd length, and on every string with an
element that is no hexadecimal digit of either case, be it after the optional marker or without one. -/
def Obligations.HexDecodeFailsOnOddLengthAndForeignDigits : Prop :=
  ∀ (Text : Type) (k : Collaborators Text) (x : List Byte),
    (x.length % 2 = 1 → hexDecode k x = .failed .hexFormat) ∧
    (∀ c ∈ x, c.toNat ∉ hexCodes → ¬ (65 ≤ c.toNat ∧ c.toNat ≤ 70) →
      hexDecode k (hexMarker ++ x) = .failed .hexFormat ∧
      (x.take 2 ≠ hexMarker → hexDecode k x = .failed .hexFormat))

/-- R95, R91: on the lowercase hexadecimal of any bytes, marked or not, HEX_DECODE checks those bytes: bytes of no text
are the decoding error, bytes of a text give it (log entry 20). -/
def Obligations.HexDecodeChecksTheDecodedBytes : Prop :=
  ∀ (Text : Type) (k : Collaborators Text) (bytes digits : List Byte),
    digits.map BitVec.toNat = bytes.flatMap (fun b => [hexCodes.getD (b.toNat / 16) 0, hexCodes.getD (b.toNat % 16) 0]) →
    ((∀ text, k.utf8 text ≠ bytes) →
      hexDecode k digits = .failed .decoding ∧ hexDecode k (hexMarker ++ digits) = .failed .decoding) ∧
    (∀ text, k.utf8 text = bytes →
      hexDecode k digits = .ok text ∧ hexDecode k (hexMarker ++ digits) = .ok text)
end

