-- ==== Sys2Proof/Laws/Bits.lean ====
section
/-! SUPPORT. Bit fields and whole buffers written as bits and read back. -/

namespace Sys2Proof

@[simp] theorem length_bitsOfNat (w n : Nat) : (bitsOfNat w n).length = w := by
  induction w with
  | zero => rfl
  | succ w ih => simp [bitsOfNat, ih]

@[simp] theorem length_bitsOf {w : Nat} (x : BitVec w) : (bitsOf x).length = w :=
  length_bitsOfNat w x.toNat

@[simp] theorem drop_bitsOf {w : Nat} (x : BitVec w) (k : Nat) (h : w ≤ k) : (bitsOf x).drop k = [] :=
  List.drop_of_length_le (by simpa using h)

theorem natOfBits_bitsOfNat (w n : Nat) : natOfBits (bitsOfNat w n) = n % 2 ^ w := by
  induction w with
  | zero => simp [bitsOfNat, natOfBits, Nat.mod_one]
  | succ w ih => simp [bitsOfNat, natOfBits, ih, Nat.mod_pow_succ, Nat.toNat_testBit, Nat.mul_comm, Nat.add_comm]

theorem natOfBits_lt (bs : Bits) : natOfBits bs < 2 ^ bs.length := by
  induction bs with
  | nil => simp [natOfBits]
  | cons b bs ih => cases b <;> simp [natOfBits, Nat.pow_succ] <;> omega

theorem bitsOfNat_mod (w n : Nat) : bitsOfNat w (n % 2 ^ w) = bitsOfNat w n := by
  have go : ∀ k, k ≤ w → bitsOfNat k (n % 2 ^ w) = bitsOfNat k n := by
    intro k
    induction k with
    | zero => intro _; rfl
    | succ k ih =>
      intro hk
      simp only [bitsOfNat, Nat.testBit_mod_two_pow, ih (by omega)]
      simp [show k < w by omega]
  exact go w (Nat.le_refl w)

theorem bitsOfNat_natOfBits (bs : Bits) : bitsOfNat bs.length (natOfBits bs) = bs := by
  induction bs with
  | nil => rfl
  | cons b bs ih =>
    have hlt := natOfBits_lt bs
    have hbit : (natOfBits (b :: bs)).testBit bs.length = b := by
      cases b <;> simp [natOfBits, Nat.testBit_lt_two_pow hlt, Nat.testBit_two_pow_add_eq]
    have hrest : natOfBits (b :: bs) % 2 ^ bs.length = natOfBits bs := by
      cases b <;> simp [natOfBits, Nat.mod_eq_of_lt hlt]
    calc bitsOfNat (b :: bs).length (natOfBits (b :: bs))
        = b :: bitsOfNat bs.length (natOfBits (b :: bs)) := by
          simp only [List.length_cons, bitsOfNat, hbit]
      _ = b :: bitsOfNat bs.length (natOfBits (b :: bs) % 2 ^ bs.length) := by rw [bitsOfNat_mod]
      _ = b :: bs := by rw [hrest, ih]

/-- A field written as bits reads back as itself. -/
@[simp] theorem fieldOf_bitsOf {w : Nat} (x : BitVec w) : fieldOf w (bitsOf x) = x := by
  apply BitVec.eq_of_toNat_eq
  simp [fieldOf, bitsOf, natOfBits_bitsOfNat]

/-- Bits read as a field of their own length write back as themselves. -/
theorem bitsOf_fieldOf {w : Nat} (bs : Bits) (h : bs.length = w) : bitsOf (fieldOf w bs) = bs := by
  subst h
  simp [bitsOf, fieldOf, bitsOfNat_mod, bitsOfNat_natOfBits]

theorem bitsOfNat_add (n m v : Nat) : bitsOfNat (n + m) v = bitsOfNat n (v >>> m) ++ bitsOfNat m v := by
  induction n with
  | zero => simp [bitsOfNat]
  | succ n ih =>
    rw [Nat.add_right_comm, bitsOfNat, ih, bitsOfNat, Nat.testBit_shiftRight, Nat.add_comm m n]
    rfl

/-- Concatenated fields are written one after the other (R10, R42). -/
theorem bitsOf_append {n m : Nat} (x : BitVec n) (y : BitVec m) : bitsOf (x ++ y) = bitsOf x ++ bitsOf y := by
  have high : (x ++ y).toNat >>> m = x.toNat := by
    rw [BitVec.toNat_append]
    exact Nat.eq_of_testBit_eq fun i => by simp [BitVec.testBit_toNat]
  have low : (x ++ y).toNat % 2 ^ m = y.toNat := by
    rw [BitVec.toNat_append]
    exact Nat.eq_of_testBit_eq fun i => by
      by_cases h : i < m <;> simp [h, BitVec.testBit_toNat, Nat.testBit_mod_two_pow, Nat.not_le.2, Nat.not_lt.1]
  rw [bitsOf, bitsOfNat_add, high, ← bitsOfNat_mod m, low]
  rfl

theorem length_bitsOfBytes (bs : List Byte) : (bitsOfBytes bs).length = 8 * bs.length := by
  induction bs with
  | nil => rfl
  | cons b bs ih => simp [bitsOfBytes, ih]; omega

/-- A whole element in front of the bits is the first element read. -/
theorem bytesOfBits_append (x rest : Bits) (h : x.length = 8) :
    bytesOfBits (x ++ rest) = (bytesOfBits rest).map (fieldOf 8 x :: ·) := by
  match x, h with
  | [b7, b6, b5, b4, b3, b2, b1, b0], _ => rfl

/-- A buffer written as bits reads back as itself. -/
@[simp] theorem bytesOfBits_bitsOfBytes (bs : List Byte) : bytesOfBits (bitsOfBytes bs) = some bs := by
  induction bs with
  | nil => rfl
  | cons b bs ih => simp [bitsOfBytes, bytesOfBits_append, ih]

/-- Bits that read as a buffer are that buffer's bits. -/
theorem bitsOfBytes_of_bytesOfBits (x : Bits) (bs : List Byte) (h : bytesOfBits x = some bs) :
    bitsOfBytes bs = x := by
  induction x using bytesOfBits.induct generalizing bs with
  | case1 => simp [bytesOfBits] at h; subst h; rfl
  | case2 b7 b6 b5 b4 b3 b2 b1 b0 rest ih =>
    rw [bytesOfBits, Option.map_eq_some_iff] at h
    obtain ⟨tail, htail, rfl⟩ := h
    rw [bitsOfBytes, ih tail htail, bitsOf_fieldOf (w := 8) _ rfl]
    rfl
  | case3 x h0 h1 => rw [bytesOfBits] at h <;> simp_all

end Sys2Proof
end

