-- ==== Sys2Proof/Laws/Buffers.lean ====
section
/-! SUPPORT. The buffers: canonical form, read after write, a whole sequence loaded and taken out. -/

namespace Sys2Proof.Machine

theorem Memory.write_mem {m : Memory} {j : Nat} {v : Byte} {x : Host.Cell} (h : x ∈ m.write j v) :
    x = (j, v) ∨ x ∈ m := by
  induction m with
  | nil => exact .inl (by simpa [Memory.write] using h)
  | cons c m ih =>
    obtain ⟨a, b⟩ := c
    simp only [Memory.write] at h
    split at h
    · simpa using h
    · split at h
      · rcases List.mem_cons.1 h with h | h
        · exact .inl h
        · exact .inr (List.mem_cons_of_mem _ h)
      · rcases List.mem_cons.1 h with h | h
        · exact .inr (h ▸ List.mem_cons_self)
        · exact (ih h).imp_right (List.mem_cons_of_mem _)

/-- A write keeps the indices strictly rising. -/
theorem Memory.write_wf {m : Memory} (h : m.wf) (j : Nat) (v : Byte) : (m.write j v).wf := by
  induction m with
  | nil => simp [Memory.write, Memory.wf]
  | cons c m ih =>
    obtain ⟨a, b⟩ := c
    obtain ⟨hhead, htail⟩ := List.pairwise_cons.1 h
    simp only [Memory.write]
    split
    · next hlt =>
      refine List.pairwise_cons.2 ⟨fun x hx => ?_, h⟩
      rcases List.mem_cons.1 hx with rfl | hx
      · exact hlt
      · exact Nat.lt_trans hlt (hhead x hx)
    · split
      · next heq => subst heq; exact List.pairwise_cons.2 ⟨hhead, htail⟩
      · next hge hne =>
        refine List.pairwise_cons.2 ⟨fun x hx => ?_, ih htail⟩
        rcases Memory.write_mem hx with rfl | hx
        · show a < j; omega
        · exact hhead x hx

theorem Memory.read_none_of_lt {m : Memory} {i : Nat} (h : ∀ x ∈ m, i < x.1) : m.read i = none := by
  induction m with
  | nil => rfl
  | cons c m ih =>
    have := h c List.mem_cons_self
    rw [Memory.read, if_neg (by omega)]
    exact ih fun x hx => h x (List.mem_cons_of_mem _ hx)

/-- What a sequence loaded from index `start` upward holds at an index. -/
theorem Memory.read_load (start : Nat) (bs : List Byte) (i : Nat) :
    (Memory.load start bs).read i = if start ≤ i then bs[i - start]? else none := by
  induction bs generalizing start with
  | nil => simp [Memory.load, Memory.read]
  | cons b bs ih =>
    rw [Memory.load, Memory.read, ih]
    rcases Nat.lt_trichotomy i start with h | h | h
    · simp [show ¬ i = start by omega, show ¬ start ≤ i by omega, show ¬ start + 1 ≤ i by omega]
    · subst h; simp
    · obtain ⟨k, hk⟩ : ∃ k, i - start = k + 1 := ⟨i - start - 1, by omega⟩
      simp [show ¬ i = start by omega, show start ≤ i by omega, show start + 1 ≤ i by omega, hk,
        show i - (start + 1) = k by omega]

theorem Memory.load_mem {start : Nat} {bs : List Byte} {x : Host.Cell} (h : x ∈ Memory.load start bs) :
    start ≤ x.1 := by
  induction bs generalizing start with
  | nil => simp [Memory.load] at h
  | cons b bs ih =>
    rcases List.mem_cons.1 h with rfl | h
    · exact Nat.le_refl _
    · exact Nat.le_trans (Nat.le_succ start) (ih h)

/-- A loaded sequence is in canonical form. -/
theorem Memory.load_wf (start : Nat) (bs : List Byte) : (Memory.load start bs).wf := by
  induction bs generalizing start with
  | nil => simp [Memory.load, Memory.wf]
  | cons b bs ih => exact List.pairwise_cons.2 ⟨fun _ hx => Memory.load_mem hx, ih (start + 1)⟩

/-- Writing at the first free index extends the sequence by one element. -/
theorem Memory.write_load (start : Nat) (bs : List Byte) (v : Byte) :
    (Memory.load start bs).write (start + bs.length) v = Memory.load start (bs ++ [v]) := by
  induction bs generalizing start with
  | nil => rfl
  | cons b bs ih =>
    have := ih (start + 1)
    simp only [Memory.load, Memory.write, List.length_cons, List.cons_append]
    rw [if_neg (by omega), if_neg (by omega), ← this]
    congr 2
    omega

/-- A loaded sequence is taken out as it was. -/
@[simp] theorem Memory.elements_load (start : Nat) (bs : List Byte) :
    (Memory.load start bs).elements = bs := by
  induction bs generalizing start with
  | nil => rfl
  | cons b bs ih => simpa [Memory.load, Memory.elements] using ih (start + 1)

/-- `MemRead` of an input buffer at an index below its length (R26). -/
theorem memRead_load {input : List Byte} {i : Nat} (h : i < input.length) :
    memRead (Memory.load 0 input) i = .ok input[i] := by
  simp [memRead, Memory.read_load, h]

/-- The byte of an ENCODE group, or the synthetic zero byte (R75). -/
theorem byteOrZero_load (input : List Byte) (i : Nat) :
    byteOrZero (Memory.load 0 input) input.length i = .ok (input.getD i 0) := by
  unfold byteOrZero
  split
  · next h => simp [memRead_load h, h]
  · next h => simp [h]

end Sys2Proof.Machine
end

