-- ==== Sys2Proof/Laws/Codec.lean ====
section
/-! SUPPORT. What each function of the Symbol Table, the Bit Packer and the group loops computes. -/

namespace Sys2Proof.Machine

open Sys2Proof.Safety

/-! ### Symbol Table -/

/-- The ordered tests of R59 give the table of R47. -/
theorem valueToSymbol_eq_tableCode (v : Sextet) : valueToSymbol v = tableCode v := by
  revert v; decide

/-- The ordered tests of R60 give the table of R47 read backwards. -/
theorem symbolToValue_eq (s : SymbolCode) :
    symbolToValue s = if legal s then some (tableValue s) else none := by
  revert s; decide +kernel

theorem valueOrFault_eq (s : SymbolCode) (index : Nat) :
    valueOrFault s index =
      if legal s then .ok (tableValue s) else .error (.alphabetError .badSymbol index) := by
  unfold valueOrFault
  rw [symbolToValue_eq]
  by_cases h : legal s = true <;> simp [h]

theorem legal_tableCode (v : Sextet) : legal (tableCode v) = true := by
  revert v; decide

theorem tableValue_tableCode (v : Sextet) : tableValue (tableCode v) = v := by
  revert v; decide

theorem tableCode_tableValue {s : SymbolCode} (h : legal s = true) : tableCode (tableValue s) = s := by
  revert s; decide +kernel

/-! ### Bit Packer: the formulas of R67 and R68 are fields of the group word (R43 to R45) -/

theorem byteView_getElem (b1 b2 b3 : Byte) (k : Nat) (h : k < 24) :
    (b1 ++ b2 ++ b3 : GroupWord)[k] =
      if k < 8 then b3.getLsbD k else if k < 16 then b2.getLsbD (k - 8) else b1.getLsbD (k - 16) := by
  rw [← BitVec.getLsbD_eq_getElem]
  show BitVec.getLsbD (w := 8 + 8 + 8) (b1 ++ b2 ++ b3) k = _
  rw [BitVec.getLsbD_append, BitVec.getLsbD_append]
  by_cases h1 : k < 8
  · simp [h1]
  · by_cases h2 : k < 16
    · simp [h1, h2, show k - 8 < 8 by omega]
    · simp [h1, h2, show ¬ k - 8 < 8 by omega, Nat.sub_sub]

theorem valueView_getElem (c1 c2 c3 c4 : Sextet) (k : Nat) (h : k < 24) :
    (c1 ++ c2 ++ c3 ++ c4 : GroupWord)[k] =
      if k < 6 then c4.getLsbD k else if k < 12 then c3.getLsbD (k - 6)
      else if k < 18 then c2.getLsbD (k - 12) else c1.getLsbD (k - 18) := by
  rw [← BitVec.getLsbD_eq_getElem]
  show BitVec.getLsbD (w := 6 + 6 + 6 + 6) (c1 ++ c2 ++ c3 ++ c4) k = _
  rw [BitVec.getLsbD_append, BitVec.getLsbD_append, BitVec.getLsbD_append]
  by_cases h1 : k < 6
  · simp [h1]
  · by_cases h2 : k < 12
    · simp [h1, h2, show k - 6 < 6 by omega]
    · by_cases h3 : k < 18
      · simp [h1, h2, h3, show ¬ k - 6 < 6 by omega, Nat.sub_sub, show k - 12 < 6 by omega]
      · simp [h1, h2, h3, show ¬ k - 6 < 6 by omega, Nat.sub_sub, show ¬ k - 12 < 6 by omega]

theorem packFirst_eq (b1 b2 b3 : Byte) : packFirst b1 = valueField (b1 ++ b2 ++ b3) 0 := by
  ext i hi
  interval_cases i <;> simp [packFirst, valueField, byteView_getElem]

theorem packSecond_eq (b1 b2 b3 : Byte) : packSecond b1 b2 = valueField (b1 ++ b2 ++ b3) 1 := by
  ext i hi
  interval_cases i <;> simp [packSecond, valueField, byteView_getElem]

theorem packThird_eq (b1 b2 b3 : Byte) : packThird b2 b3 = valueField (b1 ++ b2 ++ b3) 2 := by
  ext i hi
  interval_cases i <;> simp [packThird, valueField, byteView_getElem]

theorem packFourth_eq (b1 b2 b3 : Byte) : packFourth b3 = valueField (b1 ++ b2 ++ b3) 3 := by
  ext i hi
  interval_cases i <;> simp [packFourth, valueField, byteView_getElem]

theorem unpackFirst_eq (c1 c2 c3 c4 : Sextet) : unpackFirst c1 c2 = byteField (c1 ++ c2 ++ c3 ++ c4) 0 := by
  ext i hi
  interval_cases i <;> simp [unpackFirst, byteField, valueView_getElem]

theorem unpackSecond_eq (c1 c2 c3 c4 : Sextet) : unpackSecond c2 c3 = byteField (c1 ++ c2 ++ c3 ++ c4) 1 := by
  ext i hi
  interval_cases i <;> simp [unpackSecond, byteField, valueView_getElem]

theorem unpackThird_eq (c1 c2 c3 c4 : Sextet) : unpackThird c3 c4 = byteField (c1 ++ c2 ++ c3 ++ c4) 2 := by
  ext i hi
  interval_cases i <;> simp [unpackThird, byteField, valueView_getElem]

/-- A group word is made of its three bytes and of its four values (R43). -/
theorem byteFields_append (w : GroupWord) : (byteField w 0 ++ byteField w 1 ++ byteField w 2 : GroupWord) = w := by
  ext i hi
  interval_cases i <;> simp [byteField, byteView_getElem]

theorem valueFields_append (w : GroupWord) :
    (valueField w 0 ++ valueField w 1 ++ valueField w 2 ++ valueField w 3 : GroupWord) = w := by
  ext i hi
  interval_cases i <;> simp [valueField, valueView_getElem]

/-! ### The ENCODE loop -/

/-- Four symbols written at the end of `OUT` (R27, R30). -/
theorem writeSymbols_load (out : List Byte) (g : Nat) (h : out.length = 4 * g) (b1 b2 b3 : Byte) :
    writeSymbols (Memory.load 0 out) g b1 b2 b3 = Memory.load 0 (out ++ groupSymbols b1 b2 b3) := by
  have w0 := Memory.write_load 0 out (valueToSymbol (packFirst b1))
  have w1 := Memory.write_load 0 (out ++ [valueToSymbol (packFirst b1)]) (valueToSymbol (packSecond b1 b2))
  have w2 := Memory.write_load 0
    (out ++ [valueToSymbol (packFirst b1)] ++ [valueToSymbol (packSecond b1 b2)]) (valueToSymbol (packThird b2 b3))
  have w3 := Memory.write_load 0
    (out ++ [valueToSymbol (packFirst b1)] ++ [valueToSymbol (packSecond b1 b2)] ++
      [valueToSymbol (packThird b2 b3)]) (valueToSymbol (packFourth b3))
  simp only [List.length_append, List.length_cons, List.length_nil, h, Nat.zero_add, Nat.add_assoc] at w0 w1 w2 w3
  rw [writeSymbols, w0, w1, w2, w3]
  simp [groupSymbols, List.range_succ, valueToSymbol_eq_tableCode, packFirst_eq b1 b2 b3, packSecond_eq b1 b2 b3,
    packThird_eq b1 b2 b3, packFourth_eq b1 b2 b3]

/-- One pass of the ENCODE loop over a group that has a first byte (R74, R75). -/
theorem encodeGroup_load {input out : List Byte} {g : Nat} (hg : 3 * g < input.length)
    (hout : out.length = 4 * g) :
    encodeGroup (Memory.load 0 input) input.length g (Memory.load 0 out) =
      .ok (Memory.load 0 (out ++ groupSymbols (input.getD (3 * g) 0) (input.getD (3 * g + 1) 0)
        (input.getD (3 * g + 2) 0))) := by
  have h0 : memRead (Memory.load 0 input) (3 * g) = .ok (input.getD (3 * g) 0) := by
    simp [memRead_load hg, hg]
  simp only [encodeGroup, h0, byteOrZero_load]
  exact congrArg Except.ok (writeSymbols_load out g hout _ _ _)

theorem codecEncode_cons {x : List Byte} (h : x ≠ []) :
    codecEncode x = groupSymbols (x.getD 0 0) (x.getD 1 0) (x.getD 2 0) ++ codecEncode (x.drop 3) := by
  match x, h with
  | [_], _ => simp [codecEncode]
  | [_, _], _ => simp [codecEncode]
  | _ :: _ :: _ :: _, _ => simp [codecEncode]

theorem length_codecEncode (x : List Byte) : (codecEncode x).length = 4 * ((x.length + 2) / 3) := by
  induction x using codecEncode.induct with
  | case1 => rfl
  | case2 b1 => simp [codecEncode, groupSymbols]
  | case3 b1 b2 => simp [codecEncode, groupSymbols]
  | case4 b1 b2 b3 rest ih => simp [codecEncode, groupSymbols, ih]; omega

/-- The ENCODE loop from group `g` on adds the encoding of the rest of `IN` (R74). -/
theorem encodeGroups_load (input : List Byte) (passes g : Nat) (out : List Byte)
    (hp : passes + g = encodeGroupCount input.length) (hout : out.length = 4 * g) :
    encodeGroups (Memory.load 0 input) input.length passes g (Memory.load 0 out) =
      .ok (Memory.load 0 (out ++ codecEncode (input.drop (3 * g)))) := by
  induction passes generalizing g out with
  | zero =>
    have : input.drop (3 * g) = [] := List.drop_of_length_le (by unfold encodeGroupCount at hp; omega)
    simp [encodeGroups, this, codecEncode]
  | succ passes ih =>
    have hg : 3 * g < input.length := by unfold encodeGroupCount at hp; omega
    have hne : input.drop (3 * g) ≠ [] := by simpa using hg
    have hstep := ih (g + 1) (out ++ groupSymbols (input.getD (3 * g) 0) (input.getD (3 * g + 1) 0)
      (input.getD (3 * g + 2) 0)) (by omega) (by simp [groupSymbols, hout]; omega)
    rw [encodeGroups, encodeGroup_load hg hout]
    show encodeGroups _ _ passes (g + 1) _ = _
    rw [hstep, codecEncode_cons hne]
    simp [List.drop_drop, Nat.mul_add]

/-- ENCODE's loop over the buffers computes the encoding of the whole input, and reads nothing that is not there
(R74, R88). -/
theorem encodeBuffer_eq (input : List Byte) : encodeBuffer input = .ok (.symbolString (codecEncode input)) := by
  have h := encodeGroups_load input (encodeGroupCount input.length) 0 [] rfl rfl
  simp only [Memory.load] at h
  simp only [encodeBuffer, h]
  exact congrArg (fun x => Except.ok (Result.symbolString x)) (by simp)

/-! ### The DECODE loop -/

theorem writeBytes_load (out : List Byte) (g : Nat) (h : out.length = 3 * g) (s1 s2 s3 s4 : SymbolCode) :
    writeBytes (Memory.load 0 out) g (tableValue s1) (tableValue s2) (tableValue s3) (tableValue s4) =
      Memory.load 0 (out ++ groupBytes s1 s2 s3 s4) := by
  have w0 := Memory.write_load 0 out (unpackFirst (tableValue s1) (tableValue s2))
  have w1 := Memory.write_load 0 (out ++ [unpackFirst (tableValue s1) (tableValue s2)])
    (unpackSecond (tableValue s2) (tableValue s3))
  have w2 := Memory.write_load 0
    (out ++ [unpackFirst (tableValue s1) (tableValue s2)] ++ [unpackSecond (tableValue s2) (tableValue s3)])
    (unpackThird (tableValue s3) (tableValue s4))
  simp only [List.length_append, List.length_cons, List.length_nil, h, Nat.zero_add, Nat.add_assoc] at w0 w1 w2
  rw [writeBytes, w0, w1, w2]
  simp [groupBytes, List.range_succ, unpackFirst_eq _ _ (tableValue s3) (tableValue s4),
    unpackSecond_eq (tableValue s1) _ _ (tableValue s4), unpackThird_eq (tableValue s1) (tableValue s2)]

/-- A symbol read from `IN` at an index below its length (R78). -/
theorem readSymbol_load {input : List SymbolCode} {i : Nat} (h : i < input.length) :
    readSymbol (Memory.load 0 input) i = valueOrFault input[i] i := by
  rw [readSymbol, memRead_load h]
  rfl

/-- What the loop leaves when it has groups `x` still to examine from position `start` on. -/
def decodeRest (x : List SymbolCode) (start : Nat) (out : List Byte) : Except Abort Memory :=
  match x.findIdx? (fun s => !legal s) with
  | some k => .error (.alphabetError .badSymbol (start + k))
  | none => .ok (Memory.load 0 (out ++ codecDecode x))

/-- One pass of the DECODE loop over a complete group (R78, R80). -/
theorem decodeGroup_load {input : List SymbolCode} {out : List Byte} {g : Nat} (hg : 4 * g + 3 < input.length)
    (hout : out.length = 3 * g) :
    decodeGroup (Memory.load 0 input) g (Memory.load 0 out) =
      decodeRest [input[4 * g], input[4 * g + 1], input[4 * g + 2], input[4 * g + 3]] (4 * g) out := by
  simp only [decodeGroup, readSymbol_load (show 4 * g < input.length by omega),
    readSymbol_load (show 4 * g + 1 < input.length by omega),
    readSymbol_load (show 4 * g + 2 < input.length by omega), readSymbol_load hg, valueOrFault_eq, decodeRest,
    List.findIdx?_cons, List.findIdx?_nil]
  by_cases h1 : legal input[4 * g] = true
  · by_cases h2 : legal input[4 * g + 1] = true
    · by_cases h3 : legal input[4 * g + 2] = true
      · by_cases h4 : legal input[4 * g + 3] = true
        · have hw := writeBytes_load out g hout input[4 * g] input[4 * g + 1] input[4 * g + 2] input[4 * g + 3]
          simp [h1, h2, h3, h4, codecDecode, ← hw]
          rfl
        · simp [h1, h2, h3, h4]; rfl
      · simp [h1, h2, h3]; rfl
    · simp [h1, h2]; rfl
  · simp [h1]; rfl

/-- A first group examined, then the rest (R78, R80). -/
theorem decodeRest_group (s1 s2 s3 s4 : SymbolCode) (rest : List SymbolCode) (start : Nat) (out : List Byte) :
    decodeRest (s1 :: s2 :: s3 :: s4 :: rest) start out =
      match decodeRest [s1, s2, s3, s4] start out with
      | .ok _ => decodeRest rest (start + 4) (out ++ groupBytes s1 s2 s3 s4)
      | .error e => .error e := by
  have hidx : (s1 :: s2 :: s3 :: s4 :: rest).findIdx? (fun s => !legal s) =
      (([s1, s2, s3, s4].findIdx? (fun s => !legal s)).or
        ((rest.findIdx? (fun s => !legal s)).map (· + 4))) :=
    List.findIdx?_append (xs := [s1, s2, s3, s4])
  unfold decodeRest
  rw [hidx]
  cases [s1, s2, s3, s4].findIdx? (fun s => !legal s) with
  | some k => rfl
  | none =>
    cases rest.findIdx? (fun s => !legal s) with
    | some k => simp [Nat.add_assoc, Nat.add_comm 4 k]
    | none => simp [codecDecode]

theorem length_completeGroups (x : List SymbolCode) : (completeGroups x).length = 4 * (x.length / 4) := by
  simp [completeGroups]; omega

theorem completeGroups_drop {x : List SymbolCode} {g : Nat} (hg : 4 * g + 3 < x.length) :
    (completeGroups x).drop (4 * g) =
      x[4 * g] :: x[4 * g + 1] :: x[4 * g + 2] :: x[4 * g + 3] :: (completeGroups x).drop (4 * (g + 1)) := by
  have hlen := length_completeGroups x
  rw [List.drop_eq_getElem_cons (by omega), List.drop_eq_getElem_cons (i := 4 * g + 1) (by omega),
    List.drop_eq_getElem_cons (i := 4 * g + 1 + 1) (by omega),
    List.drop_eq_getElem_cons (i := 4 * g + 1 + 1 + 1) (by omega)]
  simp [completeGroups, Nat.mul_add]

/-- The DECODE loop from group `g` on examines the rest of the complete groups (R78, R80). -/
theorem decodeGroups_load (input : List SymbolCode) (passes g : Nat) (out : List Byte)
    (hp : passes + g = decodeGroupCount input.length) (hout : out.length = 3 * g) :
    decodeGroups (Memory.load 0 input) passes g (Memory.load 0 out) =
      decodeRest ((completeGroups input).drop (4 * g)) (4 * g) out := by
  have hlen := length_completeGroups input
  unfold decodeGroupCount at hp
  induction passes generalizing g out with
  | zero =>
    have : (completeGroups input).drop (4 * g) = [] := List.drop_of_length_le (by omega)
    simp [decodeGroups, this, decodeRest, codecDecode]
  | succ passes ih =>
    have hg : 4 * g + 3 < input.length := by omega
    have hstep := ih (g + 1) (out ++ groupBytes input[4 * g] input[4 * g + 1] input[4 * g + 2] input[4 * g + 3])
      (by omega) (by simp [groupBytes, hout]; omega)
    rw [decodeGroups, decodeGroup_load hg hout, completeGroups_drop hg,
      decodeRest_group _ _ _ _ ((completeGroups input).drop (4 * (g + 1)))]
    cases hfour : [input[4 * g], input[4 * g + 1], input[4 * g + 2], input[4 * g + 3]].findIdx?
        (fun s => !legal s) with
    | some k => simp only [decodeRest, hfour]; rfl
    | none =>
      have hok : decodeRest [input[4 * g], input[4 * g + 1], input[4 * g + 2], input[4 * g + 3]] (4 * g) out =
          .ok (Memory.load 0 (out ++ groupBytes input[4 * g] input[4 * g + 1] input[4 * g + 2] input[4 * g + 3])) := by
        simp [decodeRest, hfour, codecDecode]
      rw [hok]
      exact hstep

theorem completeGroups_of_length {x : List SymbolCode} (h : x.length % 4 = 0) : completeGroups x = x :=
  List.take_of_length_le (by omega)

theorem length_codecDecode (x : List SymbolCode) : (codecDecode x).length = 3 * (x.length / 4) := by
  induction x using codecDecode.induct with
  | case1 s1 s2 s3 s4 rest ih => simp [codecDecode, groupBytes, ih]; omega
  | case2 x hx =>
    match x, hx with
    | [], _ => rfl
    | [_], _ => simp [codecDecode]
    | [_, _], _ => simp [codecDecode]
    | [_, _, _], _ => simp [codecDecode]
    | s1 :: s2 :: s3 :: s4 :: rest, hx => exact absurd rfl (hx s1 s2 s3 s4 rest)

/-- DECODE's loop over the buffers: the first illegal symbol of the complete groups, then the length, then the bytes;
nothing is read that is not there (R78 to R80, R88, R104). -/
theorem decodeBuffer_eq (input : List SymbolCode) :
    decodeBuffer input =
      match (completeGroups input).findIdx? (fun s => !legal s) with
      | some k => .error (.alphabetError .badSymbol k)
      | none =>
        if input.length % 4 = 0 then .ok (.byteSequence (codecDecode input))
        else .error (.alphabetError .badLength (4 * (input.length / 4))) := by
  have h := decodeGroups_load input (decodeGroupCount input.length) 0 [] rfl rfl
  simp only [Memory.load, Nat.mul_zero, List.drop_zero] at h
  rw [decodeBuffer, h, decodeRest]
  cases (completeGroups input).findIdx? (fun s => !legal s) with
  | some k => simp; rfl
  | none =>
    by_cases hl : input.length % 4 = 0
    · simp [hl, completeGroups_of_length hl, bind, Except.bind, pure, Except.pure]
    · simp [hl, decodeGroupCount, bind, Except.bind, throw, throwThe, MonadExceptOf.throw]

end Sys2Proof.Machine
end

