-- ==== Sys2Proof/Laws/Compositions.lean ====
section
/-! SUPPORT. What the hexadecimal reader and writer, and so the hex collaborator, give. -/

namespace Sys2Proof.Machine

/-! ### Digits -/

theorem hexDigitValue_code (d : BitVec 4) : hexDigitValue (hexDigitCode d) = some d := by
  revert d; decide

theorem hexDigitCode_not_upper (d : BitVec 4) : isUpperHexDigit (hexDigitCode d) = false := by
  revert d; decide

/-- A byte is its two 4-bit halves, high first. -/
theorem halves_append (b : Byte) : (b.extractLsb' 4 4 ++ b.extractLsb' 0 4 : Byte) = b := by
  revert b; decide +kernel

/-! ### Writing and reading -/

theorem lowerHex_cons (b : Byte) (x : List Byte) :
    lowerHex (b :: x) = hexDigitCode (b.extractLsb' 4 4) :: hexDigitCode (b.extractLsb' 0 4) :: lowerHex x := rfl

theorem lowerHex_not_upper {x : List Byte} {c : Byte} (h : c ∈ lowerHex x) : isUpperHexDigit c = false := by
  simp only [lowerHex, List.mem_flatMap, List.mem_cons, List.not_mem_nil, or_false] at h
  obtain ⟨b, -, rfl | rfl⟩ := h <;> exact hexDigitCode_not_upper _

/-- Reading undoes writing. -/
theorem readHex_lowerHex (x : List Byte) : readHex (lowerHex x) = some x := by
  induction x with
  | nil => rfl
  | cons b x ih => simp [lowerHex_cons, readHex, hexDigitValue_code, ih, halves_append]

/-- What the reader accepts has even length, and every element is a digit. -/
theorem readHex_some {x y : List Byte} (h : readHex x = some y) :
    x.length % 2 = 0 ∧ ∀ c ∈ x, hexDigitValue c ≠ none := by
  induction x using readHex.induct generalizing y with
  | case1 => simp
  | case2 => simp [readHex] at h
  | case3 high low rest d1 d2 bytes hrest h2 h1 ih =>
    obtain ⟨hl, hd⟩ := ih hrest
    refine ⟨by simp only [List.length_cons]; omega, fun c hc => ?_⟩
    rcases List.mem_cons.1 hc with rfl | hc
    · simp [h1]
    · rcases List.mem_cons.1 hc with rfl | hc
      · simp [h2]
      · exact hd c hc
  | case4 high low rest hx _ =>
    exfalso
    rw [readHex] at h
    split at h
    · next d1 d2 bytes h1 h2 h3 => exact hx d1 d2 bytes h1 h2 h3
    · cases h

/-! ### The hex collaborator -/

variable {Text : Type} (k : Collaborators Text)

theorem Collaborators.hexdec_lowerHex (x : List Byte) : k.hexdec (lowerHex x) = some x := by
  rcases k.hexdec_eq (lowerHex x) with h | ⟨-, c, hc, hu⟩
  · rw [h, readHex_lowerHex]
  · rw [lowerHex_not_upper hc] at hu; cases hu

/-- What the decoder accepts it reads as digit pairs. -/
theorem Collaborators.hexdec_some {x y : List Byte} (h : k.hexdec x = some y) : readHex x = some y := by
  rcases k.hexdec_eq x with e | ⟨e, -⟩
  · rw [← e, h]
  · rw [h] at e; cases e

theorem Collaborators.hexdec_odd {x : List Byte} (h : x.length % 2 = 1) : k.hexdec x = none := by
  cases e : k.hexdec x with
  | none => rfl
  | some y => have := (readHex_some (k.hexdec_some e)).1; omega

theorem Collaborators.hexdec_foreign {x : List Byte} {c : Byte} (hc : c ∈ x) (h : hexDigitValue c = none) :
    k.hexdec x = none := by
  cases e : k.hexdec x with
  | none => rfl
  | some y => exact absurd h ((readHex_some (k.hexdec_some e)).2 c hc)

/-- HEX_DECODE on a string, marked or not, whose digits the decoder refuses. -/
theorem hexDecode_refused {x : List Byte}
    (h : k.hexdec (if x.take 2 = hexMarker then x.drop 2 else x) = none) :
    hexDecode k x = .failed .hexFormat := by
  simp [hexDecode, h]

end Sys2Proof.Machine
end

