-- ==== Sys2Proof/Laws/State.lean ====
section
/-! SUPPORT. One lemma per field per update of the state. -/

namespace Sys2Proof.Machine

@[simp] theorem State.deliver_config (s : State) (i : Instr) (r : Response) :
    (s.deliver i r).config = s.config := rfl

@[simp] theorem State.deliver_inputs (s : State) (i : Instr) (r : Response) :
    (s.deliver i r).inputs = s.inputs := rfl

@[simp] theorem State.deliver_transcript (s : State) (i : Instr) (r : Response) :
    (s.deliver i r).transcript = s.transcript ++ [{ request := i, response := some r }] := rfl

@[simp] theorem State.abandon_config (s : State) (i : Instr) : (s.abandon i).config = s.config := rfl

@[simp] theorem State.abandon_inputs (s : State) (i : Instr) : (s.abandon i).inputs = s.inputs := rfl

@[simp] theorem State.abandon_transcript (s : State) (i : Instr) :
    (s.abandon i).transcript = s.transcript ++ [{ request := i, response := none }] := rfl

@[simp] theorem State.withInputs_config (s : State) (xs : List HostInput) :
    (s.withInputs xs).config = s.config := rfl

@[simp] theorem State.withInputs_inputs (s : State) (xs : List HostInput) :
    (s.withInputs xs).inputs = xs := rfl

@[simp] theorem State.withInputs_transcript (s : State) (xs : List HostInput) :
    (s.withInputs xs).transcript = s.transcript := rfl

@[simp] theorem State.resetInstance_eq (s : State) : s.resetInstance = s := rfl

@[simp] theorem raiseAlphabetError_eq (s : State) (i : Instr) (cause : Cause) (index : Nat) :
    raiseAlphabetError s i cause index = s.deliver i (.fault ⟨.alphabet, cause, index⟩) := rfl

end Sys2Proof.Machine
end

