-- ==== Sys2Proof/Laws/Exec.lean ====
section
/-! SUPPORT. What an operation, an input and a step can do, said once. -/

namespace Sys2Proof.Machine

/-- An operation that goes on has answered its request and changed nothing else. -/
theorem finish_next {i : Instr} {x : Except Abort Result} {s t : State} (h : finish i x s = .next t) :
    ∃ r, t = s.deliver i r := by
  match x, h with
  | .ok r, h => exact ⟨.ok r, (Host.Outcome.next.inj h).symm⟩
  | .error (.alphabetError cause index), h => exact ⟨_, (Host.Outcome.next.inj h).symm⟩

theorem finishBounded_next {i : Instr} {n : Nat} {x : Except Abort Result} {s t : State}
    (h : finishBounded i n x s = .next t) : ∃ r, t = s.deliver i r := by
  unfold finishBounded at h
  split at h
  · exact finish_next h
  · cases h

/-- Whatever the operation, a next state is the old one with one more answered transaction. -/
theorem exec_next {i : Instr} {s t : State} (h : exec i s = .next t) : ∃ r, t = s.deliver i r := by
  cases i with
  | v2s v => exact finish_next (by simpa only [exec, execV2s] using h)
  | s2v c => exact finish_next (by simpa only [exec, execS2v] using h)
  | pack3 b1 b2 b3 => exact finish_next (by simpa only [exec, execPack3] using h)
  | unpack4 c1 c2 c3 c4 => exact finish_next (by simpa only [exec, execUnpack4] using h)
  | encode input => exact finishBounded_next h
  | decode input => exact finishBounded_next h

/-- The three ways an input of the host is served. -/
theorem serveInput_next {x : HostInput} {s t : State} (h : serveInput x s = .next t) :
    (∃ r i, x = .request r ∧ decode r = .ok i ∧ exec i s = .next t) ∨
    (∃ r i u, x = .requestThenReset r ∧ decode r = .ok i ∧ exec i s = .next u ∧ t = s.abandon i) ∨
    (x = .reset ∧ t = s) := by
  cases x with
  | request r =>
    simp only [serveInput, serveRequest] at h
    split at h
    · next i hi => exact .inl ⟨r, i, rfl, hi, h⟩
    · cases h
  | requestThenReset r =>
    simp only [serveInput, serveRequest, abandonInstead] at h
    split at h
    · next i hi =>
      split at h
      · next u hu => exact .inr (.inl ⟨r, i, u, rfl, hi, hu, (Host.Outcome.next.inj h).symm⟩)
      · cases h
      · cases h
    · cases h
  | reset => exact .inr (.inr ⟨rfl, (Host.Outcome.next.inj h).symm⟩)

/-- A step that goes on stays idle or serves the oldest input. -/
theorem step_next {s t : State} (h : step s = .next t) :
    (s.inputs = [] ∧ t = s) ∨ ∃ x xs, s.inputs = x :: xs ∧ serveInput x (s.withInputs xs) = .next t := by
  simp only [step, serveNext] at h
  split at h
  · next h0 => exact .inl ⟨h0, (Host.Outcome.next.inj h).symm⟩
  · next x xs hx => exact .inr ⟨x, xs, hx, h⟩

end Sys2Proof.Machine
end

