-- ==== Sys2Proof/Laws/PerInstr.lean ====
section
/-! SUPPORT. Facts about an operation as syntax, one lemma per constructor. -/

namespace Sys2Proof.Laws

namespace SelectField

/-- The first three bits of a request are the `op` value of its operation (R41, R42). -/
def Statement (i : Instr) : Prop :=
  (encode i).take 3 = bitsOf (opCode (opSelectOf i)) ∧ opOfCode (opCode (opSelectOf i)) = some (opSelectOf i)

theorem v2s (v : Sextet) : Statement (.v2s v) := ⟨rfl, rfl⟩
theorem s2v (s : SymbolCode) : Statement (.s2v s) := ⟨rfl, rfl⟩
theorem pack3 (b1 b2 b3 : Byte) : Statement (.pack3 b1 b2 b3) := ⟨rfl, rfl⟩
theorem unpack4 (c1 c2 c3 c4 : Sextet) : Statement (.unpack4 c1 c2 c3 c4) := ⟨rfl, rfl⟩
theorem encode (input : List Byte) : Statement (.encode input) := ⟨rfl, rfl⟩
theorem decode (input : List SymbolCode) : Statement (.decode input) := ⟨rfl, rfl⟩

end SelectField

namespace OperandField

/-- The operand bits of a request read back as its operands (R42). -/
def Statement (i : Instr) : Prop :=
  decodeOperands (opSelectOf i) (operandBits i) = some i

theorem v2s (v : Sextet) : Statement (.v2s v) := by
  simp [Statement, opSelectOf, operandBits, decodeOperands]

theorem s2v (s : SymbolCode) : Statement (.s2v s) := by
  simp [Statement, opSelectOf, operandBits, decodeOperands]

theorem pack3 (b1 b2 b3 : Byte) : Statement (.pack3 b1 b2 b3) := by
  simp [Statement, opSelectOf, operandBits, decodeOperands, List.drop_append]

theorem unpack4 (c1 c2 c3 c4 : Sextet) : Statement (.unpack4 c1 c2 c3 c4) := by
  simp [Statement, opSelectOf, operandBits, decodeOperands, List.drop_append]

theorem encode (input : List Byte) : Statement (.encode input) := by
  simp [Statement, opSelectOf, operandBits, decodeOperands]

theorem decode (input : List SymbolCode) : Statement (.decode input) := by
  simp [Statement, opSelectOf, operandBits, decodeOperands]

end OperandField

end Sys2Proof.Laws
end

