-- ==== Sys2Proof/Tests/Slice0.lean ====
section
/-!
SUPPORT. Tests of one step each, with expected values from spec/95_test_vectors.md (V-numbers) and the encodings of
spec/30_encoding.md, and one witness for the hypotheses of each statement that has some.
-/

namespace Sys2Proof.Tests

open Sys2Proof.Machine Sys2Proof.Safety

/-- An instance after reset to which the host presents these inputs. -/
def presented (xs : List HostInput) : State :=
  { State.reset with inputs := xs }

/-- An instance after reset of an implementation whose `NMAX` is 2. -/
def bounded : State :=
  { State.reset with config := { nmax := some 2 } }

/-- The response of the newest transaction. -/
def response (x : Host.Outcome State Fault Refusal) : Option Response :=
  match x with
  | .next t => t.transcript.getLast?.bind Transaction.response
  | .fault _ => none
  | .refused _ => none

/-! ### WellFormed -/

theorem test_wellFormed_refuses_long_encode :
    (Instr.encode [1, 2, 3]).wellFormed { nmax := some 2 } = false := by decide
theorem test_wellFormed_refuses_long_decode :
    (Instr.decode [48, 48, 48, 48]).wellFormed { nmax := some 3 } = false := by decide
theorem test_wellFormed_takes_the_bound : (Instr.encode [1, 2]).wellFormed { nmax := some 2 } = true := by decide

/-! ### Decoding: words written out from R42 -/

theorem test_decode_v2s : decode (bits [0,0,0, 1,0,1,1,1,0]) = .ok (.v2s 46) := by decide
theorem test_decode_s2v : decode (bits [0,0,1, 0,0,1,1,1,1,0,1]) = .ok (.s2v 0x3D) := by decide
theorem test_decode_pack3 :
    decode (bits [0,1,0, 0,0,0,1,0,0,1,0, 0,0,1,1,0,1,0,0, 0,1,0,1,0,1,1,0]) = .ok (.pack3 0x12 0x34 0x56) := by decide
theorem test_decode_unpack4 :
    decode (bits [0,1,1, 0,0,0,0,0,1, 0,0,0,0,1,0, 0,0,0,0,1,1, 0,0,0,1,0,0]) = .ok (.unpack4 1 2 3 4) := by decide
theorem test_decode_encode :
    decode (bits [1,0,0, 0,1,0,0,1,1,0,1, 0,1,1,0,0,0,0,1]) = .ok (.encode [0x4D, 0x61]) := by decide
theorem test_decode_decode : decode (bits [1,0,1, 0,0,1,1,0,1,0,0]) = .ok (.decode [0x34]) := by decide
theorem test_decode_reserved : decode (bits [1,1,0, 0,0]) = .error (.reservedSelect 6) := by decide
theorem test_decode_short_field : decode (bits [0,0,0, 1,1,1,1,1]) = .error (.operandWidth 0) := by decide
theorem test_decode_split_element : decode (bits [1,0,1, 0,0,1,1,0,1,0]) = .error (.operandWidth 5) := by decide
theorem test_decode_nothing : decode (bits [1,0]) = .error .noSelect := by decide

/-- The six rows of the opcode table with their operand bits zero, in whole bytes. -/
theorem test_tableWords :
    decodeTableWord 16 0x000 = some (.v2s 0) ∧ decodeTableWord 16 0x100 = some (.s2v 0) ∧
    decodeTableWord 32 0x2000000 = some (.pack3 0 0 0) ∧ decodeTableWord 32 0x3000000 = some (.unpack4 0 0 0 0) ∧
    decodeTableWord 8 4 = some (.encode []) ∧ decodeTableWord 8 5 = some (.decode []) ∧
    decodeTableWord 8 6 = none := by decide
/-- P1 step 10 as the first request after reset. -/
theorem test_fetchWord :
    response (step (State.reset.withFetchWord 32 0x34D616E)) = some (.ok (.bytes 0x4D 0x61 0x6E)) := by decide
theorem test_fetchWord_reserved :
    step (State.reset.withFetchWord 8 6) = .refused (.reservedSelect 6) := by rfl

/-! ### Operations -/

theorem test_v2s_last_digit : response (exec (.v2s 9) State.reset) = some (.ok (.symbol 57)) := by decide
theorem test_v2s_hyphen : response (exec (.v2s 62) State.reset) = some (.ok (.symbol 45)) := by decide
theorem test_s2v_lowercase : response (exec (.s2v 107) State.reset) = some (.ok (.value 46)) := by decide
theorem test_s2v_at_sign :
    response (exec (.s2v 64) State.reset) = some (.fault ⟨.alphabet, .badSymbol, 0⟩) := by decide
theorem test_pack3_low_bit_of_b1 :
    response (exec (.pack3 0x01 0x00 0x00) State.reset) = some (.ok (.values 0 16 0 0)) := by decide
theorem test_pack3_mixed :
    response (exec (.pack3 0xA5 0x5A 0xC3) State.reset) = some (.ok (.values 41 21 43 3)) := by decide
theorem test_unpack4_order :
    response (exec (.unpack4 1 2 3 4) State.reset) = some (.ok (.bytes 0x04 0x20 0xC4)) := by decide
theorem test_unpack4_third : response (exec (.unpack4 0 0 63 0) State.reset) = some (.ok (.bytes 0x00 0x0F 0xC0)) := by
  decide
/-- V4.9: `0G8310K0`. -/
theorem test_encode_short_group :
    response (exec (.encode [1, 2, 3, 4, 5]) State.reset) =
      some (.ok (.symbolString [48, 71, 56, 51, 49, 48, 75, 48])) := by decide
/-- V4.23: `-_y0`. -/
theorem test_encode_last_symbols :
    response (exec (.encode [0xFB, 0xFF]) State.reset) = some (.ok (.symbolString [45, 95, 121, 48])) := by decide
/-- V5.6: `JM41`. -/
theorem test_decode_keeps_padding_bits :
    response (exec (.decode [74, 77, 52, 49]) State.reset) = some (.ok (.byteSequence [0x4D, 0x61, 0x01])) := by decide
/-- V5.28: `!AAAB`. -/
theorem test_decode_symbol_before_length :
    response (exec (.decode [33, 65, 65, 65, 66]) State.reset) = some (.fault ⟨.alphabet, .badSymbol, 0⟩) := by decide

/-! ### Witnesses for the hypotheses of the statements -/

theorem witness_EncodeOfDecodeIsTheRequest : decode (bits [0,0,1, 0,1,0,0,1,0,1,0]) = .ok (.s2v 0x4A) := by decide

theorem witness_ReservedSelectIsRefusedByName :
    (presented [.request (bits [1,1,0])]).inputs = [.request (true :: true :: false :: [])] ∧
    (presented [.request (bits [1,1,1,0])]).inputs = [.request (true :: true :: true :: [false])] := by decide

theorem witness_BitStringOfNoFormIsRefused :
    (∀ i, encode i ≠ bits [0,0,0,1]) ∧ (bits [0,0,0,1]).take 2 ≠ bits [1,1] ∧
    (∀ i, encode i ≠ bits [1,1]) ∧ (bits [1,1]).length < 3 := by
  refine ⟨fun i h => ?_, by decide, fun i h => ?_, by decide⟩ <;>
    (have hlen := congrArg List.length h
     cases i <;> simp [encode, operandBits, length_bitsOfBytes, bits] at hlen
     all_goals omega)

/-- For ResponseWordHasItsWidth and FourOperationsNeverFault: an OK response of each operation. -/
theorem witness_ResponseWordHasItsWidth :
    exec (.v2s 19) State.reset = .next (answered State.reset (.v2s 19) (.ok (.symbol 0x4A))) ∧
    exec (.s2v 0x4A) State.reset = .next (answered State.reset (.s2v 0x4A) (.ok (.value 19))) ∧
    exec (.pack3 0 0 0x40) State.reset = .next (answered State.reset (.pack3 0 0 0x40) (.ok (.values 0 0 1 0))) ∧
    exec (.unpack4 27 0 0 0) State.reset = .next (answered State.reset (.unpack4 27 0 0 0) (.ok (.bytes 0x6C 0 0))) ∧
    exec (.encode [1]) State.reset =
      .next (answered State.reset (.encode [1]) (.ok (.symbolString [48, 71, 48, 48]))) ∧
    exec (.decode [52, 52, 52, 52]) State.reset =
      .next (answered State.reset (.decode [52, 52, 52, 52]) (.ok (.byteSequence [0x10, 0x41, 0x04]))) :=
  ⟨rfl, rfl, rfl, rfl, rfl, rfl⟩

theorem witness_StepRunsTheDecodedRequest :
    (presented [.request (bits [0,0,0, 0,1,0,0,1,1])]).inputs = [.request (bits [0,0,0, 0,1,0,0,1,1])] ∧
    decode (bits [0,0,0, 0,1,0,0,1,1]) = .ok (.v2s 19) := ⟨rfl, rfl⟩

theorem witness_PlacedTableWordIsServedNext : decodeTableWord 16 0x13D = some (.s2v 61) := by decide

theorem witness_IdleInstanceStaysIdle : (presented []).inputs = [] := rfl

theorem witness_ResetOfAnIdleInstanceChangesNothing : (presented [.reset]).inputs = [.reset] := rfl

theorem witness_ResetDuringAnOperationAbandonsIt :
    (presented [.requestThenReset (bits [1,0,0]), .request (bits [1,0,0])]).inputs =
      [.requestThenReset (bits [1,0,0]), .request (bits [1,0,0])] ∧
    decode (bits [1,0,0]) = .ok (.encode []) ∧
    (Instr.encode []).wellFormed (presented []).config = true := ⟨rfl, rfl, rfl⟩

/-- For StepOnlyAddsToTheTranscript and StepKeepsTranscriptRight: a step from a state with the invariant. -/
theorem witness_StepKeepsTranscriptRight :
    Inv (presented [.request (bits [1,0,0])]) ∧
    step (presented [.request (bits [1,0,0])]) =
      .next (answered State.reset (.encode []) (.ok (.symbolString []))) :=
  ⟨fun _ h => (nomatch h), rfl⟩

theorem witness_ResponseIsAFunctionOfTheRequest :
    (Instr.decode [48, 48]).wellFormed bounded.config = true := by decide

/-- A FAULT of S2V, BAD_SYMBOL in the last element of a complete group, at the first of two, BAD_LENGTH with an empty set of complete groups
and with one. -/
theorem witness_EveryFaultIsTheAlphabetError :
    exec (.s2v 63) State.reset =
      .next (answered State.reset (.s2v 63) (.fault ⟨.alphabet, .badSymbol, 0⟩)) ∧
    exec (.decode [65, 65, 65, 33]) State.reset =
      .next (answered State.reset (.decode [65, 65, 65, 33]) (.fault ⟨.alphabet, .badSymbol, 3⟩)) ∧
    exec (.decode [65, 33, 65, 33]) State.reset =
      .next (answered State.reset (.decode [65, 33, 65, 33]) (.fault ⟨.alphabet, .badSymbol, 1⟩)) ∧
    exec (.decode [48]) State.reset =
      .next (answered State.reset (.decode [48]) (.fault ⟨.alphabet, .badLength, 0⟩)) ∧
    exec (.decode [65, 65, 65, 65, 33]) State.reset =
      .next (answered State.reset (.decode [65, 65, 65, 65, 33]) (.fault ⟨.alphabet, .badLength, 4⟩)) :=
  ⟨rfl, rfl, rfl, rfl, rfl⟩

theorem witness_RunAnswersEachRequestByItself :
    ∀ x ∈ (presented [.request (bits [1,0,1]), .requestThenReset (bits [0,0,0, 1,1,1,1,1,1]), .reset]).inputs,
      meaningful State.reset.config x := by
  intro x hx
  simp only [presented, List.mem_cons, List.not_mem_nil, or_false] at hx
  rcases hx with rfl | rfl | rfl
  · exact ⟨.decode [], rfl, rfl⟩
  · exact ⟨.v2s 63, rfl, rfl⟩
  · trivial

theorem witness_InstancesDoNotAffectEachOther :
    stepInstance 0 [presented [.reset], presented [.request (bits [1,0,0])]] =
      some [State.reset, presented [.request (bits [1,0,0])]] ∧
    stepInstance 1 [State.reset, presented [.request (bits [1,0,0])]] =
      some [State.reset, answered State.reset (.encode []) (.ok (.symbolString []))] ∧
    (0 : Nat) ≠ 1 := by decide

/-- One element over the bound, and `n = NMAX`. -/
theorem witness_InputLongerThanTheBoundIsRefused :
    bounded.config.nmax = some 2 ∧ 2 < ([1, 2, 3] : List Byte).length ∧
    ([1, 2] : List Byte).length ≤ 2 ∧ State.reset.config.nmax = none := by decide

theorem test_bound_itself_is_served :
    response (exec (.encode [1, 2]) bounded) = some (.ok (.symbolString [48, 71, 56, 48])) := by decide

/-- Illegal and legal operands of S2V and DECODE at a bound that admits them. -/
theorem witness_StatusIsFaultExactlyOnIllegalSymbols :
    (91 : SymbolCode).toNat ∉ alphabetCodes ∧ (90 : SymbolCode).toNat ∈ alphabetCodes ∧
    bounded.config.admits ([48, 48] : List SymbolCode).length = true ∧ validString [48, 48] = false ∧
    State.reset.config.admits ([48, 48, 48, 95] : List SymbolCode).length = true ∧
    validString [48, 48, 48, 95] = true := by decide

/-- For BufferReadsWhatWasWritten and BufferFormIsCanonical. -/
theorem witness_BufferReadsWhatWasWritten : Memory.wf [(0, 1), (2, 3)] ∧ Memory.wf [] := by decide

/-- Both ends of each range of codes, and the two single codes. -/
theorem witness_S2vCompletesOnTheTable :
    ∀ c ∈ [48, 57, 65, 90, 97, 122, 45, 95], (BitVec.ofNat 8 c).toNat ∈ alphabetCodes := by decide

/-- The codes next to each range, the two ends of the lane, and `?`. -/
theorem witness_S2vFaultsOutsideTheTable :
    ∀ c ∈ [0, 44, 46, 47, 58, 63, 64, 91, 94, 96, 123, 255], (BitVec.ofNat 8 c).toNat ∉ alphabetCodes := by decide

theorem witness_SymbolTableIsABijection :
    exec (.v2s 63) State.reset = .next (answered State.reset (.v2s 63) (.ok (.symbol 95))) ∧
    legal 95 = true := ⟨rfl, rfl⟩

/-- For the statements over every input an implementation takes: one and two bytes, with and without a bound. -/
theorem witness_EncodeAnswersGroupByGroup :
    State.reset.config.admits ([0x4D] : List Byte).length = true ∧
    bounded.config.admits ([0x4D, 0x61] : List Byte).length = true ∧
    ([0x4D] : List Byte).length % 3 = 1 ∧ ([0x4D, 0x61] : List Byte).length % 3 = 2 := by decide

/-- For DecodeAcceptsExactlyTheValidStrings, DecodeAnswersGroupByGroup and EncodeOfDecodeIsTheValidString. -/
theorem witness_DecodeAnswersGroupByGroup :
    State.reset.config.admits ([95, 95, 95, 95] : List SymbolCode).length = true ∧
    validString [95, 95, 95, 95] = true ∧ validString [] = true ∧
    exec (.encode [1]) State.reset =
      .next (answered State.reset (.encode [1]) (.ok (.symbolString [48, 71, 48, 48]))) :=
  ⟨rfl, rfl, rfl, rfl⟩

/-- `JM5kJM5=` at position 7. -/
theorem witness_DecodeReportsTheFirstIllegalSymbol :
    let x : List SymbolCode := [74, 77, 53, 107, 74, 77, 53, 61]
    State.reset.config.admits x.length = true ∧ 7 < 4 * (x.length / 4) ∧ x[7]? = some 61 ∧
    (61 : SymbolCode).toNat ∉ alphabetCodes ∧
    ∀ d ∈ x.take 7, d.toNat ∈ alphabetCodes := by decide

/-- `JM4`, with no complete group, and `JM5k=`, with an illegal symbol in the undersized group only. -/
theorem witness_DecodeReportsTheMalformedLength :
    (State.reset.config.admits 3 = true ∧ ([74, 77, 52] : List SymbolCode).length % 4 ≠ 0 ∧
      ([74, 77, 52] : List SymbolCode).length / 4 = 0) ∧
    (let x : List SymbolCode := [74, 77, 53, 107, 61]
     State.reset.config.admits x.length = true ∧ x.length % 4 ≠ 0 ∧
     ∀ d ∈ x.take (4 * (x.length / 4)), d.toNat ∈ alphabetCodes) := by decide

/-- For DecodeOfEncodeAppendsTheSyntheticZeros and ZeroExtensionsShareAnEncoding. -/
theorem witness_DecodeOfEncodeAppendsTheSyntheticZeros :
    State.reset.config.admits ([0x4D] : List Byte).length = true ∧
    State.reset.config.admits (4 * ((([0x4D] : List Byte).length + 2) / 3)) = true ∧
    2 ≤ (3 - ([0x4D] : List Byte).length % 3) % 3 ∧
    State.reset.config.admits (([0x4D] : List Byte).length + 2) = true := by decide

/-- For EncodeIsInjectiveOnEachLength and DecodeIsInjectiveOnValidStrings. -/
theorem witness_EncodeIsInjectiveOnEachLength :
    exec (.encode [0x4D]) State.reset =
      .next (answered State.reset (.encode [0x4D]) (.ok (.symbolString [74, 71, 48, 48]))) ∧
    exec (.decode [74, 71, 48, 48]) State.reset =
      .next (answered State.reset (.decode [74, 71, 48, 48]) (.ok (.byteSequence [0x4D, 0, 0]))) := ⟨rfl, rfl⟩

/-! ### The host's compositions -/

/-- Texts of 7-bit codes, which are their own UTF-8. -/
abbrev Ascii := List (BitVec 7)

def asciiBytes (text : Ascii) : List Byte :=
  text.map (BitVec.setWidth 8)

/-- The text of bytes below 128; `none` if some byte is not. -/
def asciiText (x : List Byte) : Option Ascii :=
  if x.all (fun b => !b.msb) then some (x.map (BitVec.setWidth 7)) else none

theorem asciiText_eq (x : List Byte) (text : Ascii) : asciiText x = some text ↔ asciiBytes text = x := by
  have down : ∀ c : BitVec 7, BitVec.setWidth 7 (BitVec.setWidth 8 c) = c ∧ (BitVec.setWidth 8 c).msb = false := by decide
  have up : ∀ b : Byte, b.msb = false → BitVec.setWidth 8 (BitVec.setWidth 7 b) = b := by decide +kernel
  constructor
  · intro h
    unfold asciiText at h
    split at h
    · next hx =>
      cases h
      simp only [List.all_eq_true, Bool.not_eq_true'] at hx
      rw [asciiBytes, List.map_map]
      exact (List.map_congr_left fun b hb => up b (hx b hb)).trans (List.map_id _)
    · cases h
  · rintro rfl
    have hall : (asciiBytes text).all (fun b => !b.msb) = true := by simp [asciiBytes, (down _).2]
    rw [asciiText, if_pos hall, asciiBytes, List.map_map]
    exact congrArg some ((List.map_congr_left fun c _ => (down c).1).trans (List.map_id _))

/-- Collaborators over ASCII texts. The compressed stream ends in a byte 1, so that zero bytes after it are seen and
dropped, and a string of zero bytes is no stream. The hex decoder takes both cases. -/
def markedStream : Collaborators Ascii where
  utf8 := asciiBytes
  utf8check := asciiText
  compress x := some (x ++ [1])
  decompress z :=
    match z.reverse.dropWhile (· == 0) with
    | 1 :: x => some x.reverse
    | _ => none
  hexenc := lowerHex
  hexdec := readHex
  utf8check_eq := asciiText_eq
  hexenc_eq _ := rfl
  hexdec_eq _ := .inl rfl

theorem markedStream_decompressUndoesCompress : markedStream.DecompressUndoesCompress := by
  rintro x _ ⟨⟩
  simp [markedStream]

theorem markedStream_toleratesZeros : markedStream.ToleratesZeros := by
  rintro x _ p ⟨⟩ hp
  rcases (by omega : p = 0 ∨ p = 1 ∨ p = 2) with rfl | rfl | rfl <;> simp [markedStream, List.replicate]

/-- With no bound, and with `NMAX` 4: a stream of 2 bytes and its token of 4 symbols. -/
theorem witness_DeflateRoundTripsThroughTheCodec :
    markedStream.DecompressUndoesCompress ∧ markedStream.ToleratesZeros ∧
    markedStream.compress (markedStream.utf8 [0x40]) = some [0x40, 1] ∧
    Config.admits { nmax := some 4 } ([0x40, 1] : List Byte).length = true ∧
    Config.admits { nmax := some 4 } (4 * ((([0x40, 1] : List Byte).length + 2) / 3)) = true ∧
    Config.default.nmax = none ∧ (∀ text, markedStream.compress (markedStream.utf8 text) ≠ none) :=
  ⟨markedStream_decompressUndoesCompress, markedStream_toleratesZeros, rfl, rfl, rfl, rfl, fun _ => nofun⟩

/-- An invalid token, one of no stream, one of a stream of no text (`W40` is byte 0x80, then 1), one of a text. -/
theorem witness_DeflateDecodeTriesTheCodecFirst :
    Config.admits { nmax := some 4 } ([74, 77, 52] : List SymbolCode).length = true ∧
    validString [74, 77, 52] = false ∧
    validString [48, 48, 48, 48] = true ∧ markedStream.decompress (codecDecode [48, 48, 48, 48]) = none ∧
    validString [87, 48, 52, 48] = true ∧
    markedStream.decompress (codecDecode [87, 48, 52, 48]) = some [0x80] ∧
    (∀ text, markedStream.utf8 text ≠ [0x80]) ∧
    validString [71, 48, 52, 48] = true ∧
    markedStream.decompress (codecDecode [71, 48, 52, 48]) = some [0x40] ∧
    markedStream.utf8 [0x40] = [0x40] := by
  refine ⟨by decide, by decide, by decide, by decide, by decide, by decide, fun text h => ?_, by decide, by decide, rfl⟩
  have := (markedStream.utf8check_eq [0x80] text).2 h
  cases this

/-- A compressor that fails, and one that does not. -/
theorem witness_DeflateEncodeFailsOnlyInTheCompressor :
    ({ markedStream with compress := fun _ => none } : Collaborators Ascii).compress (markedStream.utf8 []) = none ∧
    markedStream.compress (markedStream.utf8 []) = some [1] ∧
    Config.admits { nmax := some 1 } ([1] : List Byte).length = true := ⟨rfl, rfl, rfl⟩

/-- The first and the last byte of `@~`, so digits of both kinds. -/
theorem witness_HexEncodeAnswersLowercaseHex :
    (markedStream.utf8 [0x40, 0x7E])[0]? = some 0x40 ∧ (markedStream.utf8 [0x40, 0x7E])[1]? = some 0x7E := ⟨rfl, rfl⟩

/-- `12345`, and the codes next to each range of digits. -/
theorem witness_HexDecodeFailsOnOddLengthAndForeignDigits :
    ([49, 50, 51, 52, 53] : List Byte).length % 2 = 1 ∧
    (∀ c ∈ [47, 58, 64, 71, 96, 103], c ∉ hexCodes ∧ ¬ (65 ≤ c ∧ c ≤ 70)) ∧
    ([47, 48] : List Byte).take 2 ≠ hexMarker := by decide

/-- `80` is the bytes of no text, `7a` of one. -/
theorem witness_HexDecodeChecksTheDecodedBytes :
    ([56, 48] : List Byte).map BitVec.toNat =
      ([0x80] : List Byte).flatMap (fun b => [hexCodes.getD (b.toNat / 16) 0, hexCodes.getD (b.toNat % 16) 0]) ∧
    (∀ text, markedStream.utf8 text ≠ [0x80]) ∧
    ([55, 97] : List Byte).map BitVec.toNat =
      ([0x7A] : List Byte).flatMap (fun b => [hexCodes.getD (b.toNat / 16) 0, hexCodes.getD (b.toNat % 16) 0]) ∧
    markedStream.utf8 [0x7A] = [0x7A] := by
  refine ⟨by decide, fun text h => ?_, by decide, rfl⟩
  have := (markedStream.utf8check_eq [0x80] text).2 h
  cases this

/-- The start of S1.1: `@startuml` and a line feed. -/
theorem test_hexEncode :
    hexEncode markedStream [0x40, 0x73, 0x74, 0x61, 0x72, 0x74, 0x75, 0x6D, 0x6C, 0x0A] =
      [126, 104, 52, 48, 55, 51, 55, 52, 54, 49, 55, 50, 55, 52, 55, 53, 54, 100, 54, 99, 48, 97] := by decide

/-- S1.3: `12345`, whatever the collaborators. -/
theorem test_hexDecode_odd (k : Collaborators Ascii) : hexDecode k [49, 50, 51, 52, 53] = .failed .hexFormat :=
  hexDecode_refused k (k.hexdec_odd rfl)

end Sys2Proof.Tests
end

/-! ### What an operation, an input and a step do, in terms of the response owed -/

namespace Sys2Proof.Machine

open Sys2Proof.Safety

/-! #### The end of an operation -/

@[simp] theorem finish_ok (i : Instr) (r : Result) (s : State) :
    finish i (.ok r) s = .next (answered s i (.ok r)) := rfl

@[simp] theorem finish_alphabetError (i : Instr) (cause : Cause) (index : Nat) (s : State) :
    finish i (.error (.alphabetError cause index)) s =
      .next (answered s i (.fault ⟨.alphabet, cause, index⟩)) := rfl

theorem finishBounded_of_admits {n : Nat} {s : State} (h : s.config.admits n = true) (i : Instr)
    (x : Except Abort Result) : finishBounded i n x s = finish i x s :=
  if_pos h

theorem admits_of_finishBounded_next {i : Instr} {n : Nat} {x : Except Abort Result} {s t : State}
    (h : finishBounded i n x s = .next t) : s.config.admits n = true := by
  unfold finishBounded at h
  split at h
  · next hn => exact hn
  · cases h

/-- Two answers to one request at one state are one answer. -/
theorem answered_inj {s : State} {i : Instr} {r q : Response} (h : answered s i r = answered s i q) : r = q := by
  have htranscript := congrArg State.transcript h
  simpa [answered] using htranscript

/-! #### An operation -/

theorem execS2v_eq (c : SymbolCode) (s : State) : execS2v c s = .next (answered s (.s2v c) (answer (.s2v c))) := by
  by_cases hc : legal c = true <;> simp [execS2v, valueOrFault_eq, hc, Except.map, answer]

/-- DECODE's loop ends in the response owed (R78 to R80, R104). -/
theorem finish_decodeBuffer (x : List SymbolCode) (s : State) :
    finish (.decode x) (decodeBuffer x) s = .next (answered s (.decode x) (decodeAnswer x)) := by
  rw [decodeBuffer_eq, decodeAnswer]
  cases (completeGroups x).findIdx? (fun d => !legal d) with
  | some k => rfl
  | none => by_cases hlen : x.length % 4 = 0 <;> simp [hlen]

/-- An operation the implementation serves answers with the response owed, and changes nothing else. -/
theorem exec_of_wellFormed {i : Instr} {s : State} (h : i.wellFormed s.config = true) :
    exec i s = .next (answered s i (answer i)) := by
  cases i with
  | v2s v => simp [exec, execV2s, answer, valueToSymbol_eq_tableCode]
  | s2v c => exact execS2v_eq c s
  | pack3 b1 b2 b3 =>
    simp [exec, execPack3, answer, packFirst_eq b1 b2 b3, packSecond_eq b1 b2 b3, packThird_eq b1 b2 b3,
      packFourth_eq b1 b2 b3]
  | unpack4 c1 c2 c3 c4 =>
    simp [exec, execUnpack4, answer, unpackFirst_eq c1 c2 c3 c4, unpackSecond_eq c1 c2 c3 c4,
      unpackThird_eq c1 c2 c3 c4]
  | encode input => simp [exec, execEncode, finishBounded_of_admits h, encodeBuffer_eq, answer]
  | decode input => exact (finishBounded_of_admits h _ _).trans (finish_decodeBuffer input s)

/-- An operation that goes on is one the implementation serves (R25). -/
theorem wellFormed_of_exec_next {i : Instr} {s t : State} (h : exec i s = .next t) :
    i.wellFormed s.config = true := by
  cases i with
  | v2s v => rfl
  | s2v c => rfl
  | pack3 b1 b2 b3 => rfl
  | unpack4 c1 c2 c3 c4 => rfl
  | encode input => exact admits_of_finishBounded_next h
  | decode input => exact admits_of_finishBounded_next h

theorem exec_next_iff {i : Instr} {s t : State} :
    exec i s = .next t ↔ i.wellFormed s.config = true ∧ t = answered s i (answer i) := by
  constructor
  · intro h
    have hwf := wellFormed_of_exec_next h
    exact ⟨hwf, Host.Outcome.next.inj (h.symm.trans (exec_of_wellFormed hwf))⟩
  · rintro ⟨hwf, rfl⟩
    exact exec_of_wellFormed hwf

/-- Whatever an operation answers is the response owed. -/
theorem eq_answer_of_exec {i : Instr} {s : State} {r : Response} (h : exec i s = .next (answered s i r)) :
    r = answer i :=
  answered_inj (exec_next_iff.1 h).2

theorem abandonInstead_of_wellFormed {i : Instr} {s : State} (h : i.wellFormed s.config = true) :
    abandonInstead i s = .next (s.abandon i) := by
  simp [abandonInstead, exec_of_wellFormed h]

/-! #### The status of a response -/

theorem legal_iff_mem (c : SymbolCode) : legal c = true ↔ c.toNat ∈ alphabetCodes :=
  List.contains_iff_mem

theorem statusOf_answer_s2v (c : SymbolCode) :
    statusOf (answer (.s2v c)) = if legal c then .ok else .fault := by
  by_cases hc : legal c = true <;> simp [answer, hc, statusOf]

theorem findIdx?_illegal_eq_none_iff (x : List SymbolCode) :
    x.findIdx? (fun d => !legal d) = none ↔ x.all legal = true := by
  simp

theorem statusOf_decodeAnswer (x : List SymbolCode) :
    statusOf (decodeAnswer x) = if validString x then .ok else .fault := by
  by_cases hlen : x.length % 4 = 0
  · have hvalid : validString x = x.all legal := by simp [validString, hlen]
    rw [decodeAnswer, completeGroups_of_length hlen, hvalid]
    cases hidx : x.findIdx? (fun d => !legal d) with
    | some k =>
      have hillegal : ¬ x.all legal = true := by
        rw [← findIdx?_illegal_eq_none_iff, hidx]
        exact Option.some_ne_none k
      rw [if_neg hillegal]
      rfl
    | none =>
      rw [if_pos ((findIdx?_illegal_eq_none_iff x).1 hidx)]
      simp [hlen, statusOf]
  · have hinvalid : validString x = false := by simp [validString, hlen]
    rw [decodeAnswer, hinvalid]
    cases (completeGroups x).findIdx? (fun d => !legal d) with
    | some k => rfl
    | none => simp [hlen, statusOf]

/-! #### A step -/

theorem step_of_inputs_cons {s : State} {x : HostInput} {xs : List HostInput} (h : s.inputs = x :: xs) :
    step s = serveInput x (s.withInputs xs) := by
  simp [step, serveNext, h]

theorem serveRequest_of_decode {r : Bits} {i : Instr} (h : decode r = .ok i)
    (serve : Instr → State → Host.Outcome State Fault Refusal) (s : State) :
    serveRequest serve r s = serve i s := by
  simp [serveRequest, h]

/-- `s` with its oldest input taken and `more` recorded: what a step may change. -/
def State.recorded (s : State) (more : List Transaction) : State :=
  { s with inputs := s.inputs.tail, transcript := s.transcript ++ more }

/-- A step that goes on takes the oldest input and records at most one transaction, one that stands as the spec says. -/
theorem step_next_recorded {s t : State} (h : step s = .next t) :
    ∃ more, t = s.recorded more ∧ more.length ≤ 1 ∧ ∀ x ∈ more, transactionRight s.config x := by
  obtain ⟨hidle, rfl⟩ | ⟨x, xs, hx, hserve⟩ := step_next h
  · refine ⟨[], ?_, by simp, by simp⟩
    obtain ⟨config, inputs, transcript⟩ := t
    obtain rfl : inputs = [] := hidle
    simp [State.recorded]
  · obtain ⟨r, i, -, -, hexec⟩ | ⟨r, i, u, -, -, hexec, rfl⟩ | ⟨-, rfl⟩ := serveInput_next hserve
    · obtain ⟨hwf, rfl⟩ := exec_next_iff.1 hexec
      refine ⟨[⟨i, some (answer i)⟩], ?_, by simp, ?_⟩
      · simp [State.recorded, answered, State.withInputs, hx]
      · simpa [transactionRight] using hwf
    · have hwf := wellFormed_of_exec_next hexec
      refine ⟨[⟨i, none⟩], ?_, by simp, ?_⟩
      · simp [State.recorded, State.abandon, State.withInputs, hx]
      · simpa [transactionRight] using hwf
    · exact ⟨[], by simp [State.recorded, State.withInputs, hx], by simp, by simp⟩

/-- An input with a meaning is taken and leaves its own record, whatever the transcript before it. -/
theorem step_of_meaningful {s : State} {x : HostInput} {xs : List HostInput} (hx : s.inputs = x :: xs)
    (h : meaningful s.config x) : step s = .next (s.recorded (recordOf x)) := by
  rw [step_of_inputs_cons hx]
  cases x with
  | request r =>
    obtain ⟨i, hdecode, hwf⟩ := h
    rw [serveInput, serveRequest_of_decode hdecode, exec_of_wellFormed (s := s.withInputs xs) hwf]
    simp [State.recorded, recordOf, hdecode, answered, State.withInputs, hx]
  | requestThenReset r =>
    obtain ⟨i, hdecode, hwf⟩ := h
    rw [serveInput, serveRequest_of_decode hdecode, abandonInstead_of_wellFormed (s := s.withInputs xs) hwf]
    simp [State.recorded, recordOf, hdecode, State.abandon, State.withInputs, hx]
  | reset => simp [serveInput, State.recorded, recordOf, State.withInputs, hx]

/-! #### A run -/

theorem run_succ {M : Host.Core} {s t : M.State} (h : M.step s = .next t) (k : Nat) :
    M.run (k + 1) s = M.run k t := by
  simp [Host.Core.run, h]

/-- Inputs with a meaning are all taken, and each leaves its own record, in order. -/
theorem run_of_meaningful (xs : List HostInput) (s : State) (hxs : s.inputs = xs)
    (h : ∀ x ∈ xs, meaningful s.config x) :
    Host.Core.run Sys2Proof.core xs.length s =
      .next { s with inputs := [], transcript := s.transcript ++ xs.flatMap recordOf } := by
  induction xs generalizing s with
  | nil =>
    obtain ⟨config, inputs, transcript⟩ := s
    obtain rfl : inputs = [] := hxs
    simp [Host.Core.run]
  | cons x xs ih =>
    have hstep := step_of_meaningful hxs (h x List.mem_cons_self)
    have hrest := ih (s.recorded (recordOf x)) (by simp [State.recorded, hxs])
      fun y hy => h y (List.mem_cons_of_mem x hy)
    refine (run_succ (M := Sys2Proof.core) hstep xs.length).trans (hrest.trans ?_)
    simp [State.recorded]

/-! #### A step within a system -/

theorem stepInstance_eq_some_iff {k : Nat} {xs ys : Instances} :
    stepInstance k xs = some ys ↔ ∃ s t, xs[k]? = some s ∧ step s = .next t ∧ ys = xs.set k t := by
  unfold stepInstance
  cases xs[k]? with
  | none => simp
  | some s =>
    cases hstep : step s with
    | next t => simp [hstep, eq_comm]
    | fault r => simp [hstep]
    | refused r => simp [hstep]

/-! ### The obligations -/

/-- Settles O19: a step only adds transactions that stand as the spec says. -/
theorem stepKeepsTranscriptRight : Obligations.StepKeepsTranscriptRight := by
  intro s t hinv hstep
  obtain ⟨more, rfl, -, hmore⟩ := step_next_recorded hstep
  intro x hx
  rcases List.mem_append.1 hx with hold | hnew
  · exact hinv x hold
  · exact hmore x hnew

/-- Settles O21, by induction on the inputs. -/
theorem runAnswersEachRequestByItself : Obligations.RunAnswersEachRequestByItself :=
  fun s h => run_of_meaningful s.inputs s rfl h

/-- Settles O14. -/
theorem stepOnlyAddsToTheTranscript : Obligations.StepOnlyAddsToTheTranscript := by
  intro s t hstep
  obtain ⟨more, rfl, hlen, -⟩ := step_next_recorded hstep
  exact ⟨rfl, rfl, more, rfl, hlen⟩

/-- Settles O16: the one response is the response owed. -/
theorem responseIsAFunctionOfTheRequest : Obligations.ResponseIsAFunctionOfTheRequest :=
  fun i => ⟨answer i, fun _ => exec_of_wellFormed⟩

/-- Settles O17: the response owed to each of the four operations has status OK. -/
theorem fourOperationsNeverFault : Obligations.FourOperationsNeverFault :=
  fun _ _ =>
    ⟨fun _ h => congrArg statusOf (eq_answer_of_exec h), fun _ _ _ h => congrArg statusOf (eq_answer_of_exec h),
      fun _ _ _ _ h => congrArg statusOf (eq_answer_of_exec h), fun _ h => congrArg statusOf (eq_answer_of_exec h)⟩

/-- Settles O22: each step writes its own position, from the state at that position. -/
theorem instancesDoNotAffectEachOther : Obligations.InstancesDoNotAffectEachOther := by
  intro xs ys zs j k hjk hj hk
  obtain ⟨s, t, hs, hst, rfl⟩ := stepInstance_eq_some_iff.1 hj
  obtain ⟨u, v, hu, huv, rfl⟩ := stepInstance_eq_some_iff.1 hk
  rw [List.getElem?_set_ne hjk] at hu
  refine ⟨fun m hm => List.getElem?_set_ne hm.symm, xs.set k v, ?_, ?_⟩
  · exact stepInstance_eq_some_iff.2 ⟨u, v, hu, huv, rfl⟩
  · refine stepInstance_eq_some_iff.2 ⟨s, t, ?_, hst, List.set_comm _ _ hjk⟩
    rw [List.getElem?_set_ne hjk.symm, hs]

/-- Settles O56, from the status of the response owed. -/
theorem statusIsFaultExactlyOnIllegalSymbols : Obligations.StatusIsFaultExactlyOnIllegalSymbols := by
  refine ⟨fun c s => ⟨answer (.s2v c), execS2v_eq c s, ?_, ?_⟩, fun x s hx => ⟨answer (.decode x), ?_, ?_, ?_⟩⟩
  · intro hc
    rw [statusOf_answer_s2v, if_neg (mt (legal_iff_mem c).1 hc)]
  · intro hc
    rw [statusOf_answer_s2v, if_pos ((legal_iff_mem c).2 hc)]
  · exact exec_of_wellFormed hx
  · intro hinvalid
    simp [answer, statusOf_decodeAnswer, hinvalid]
  · intro hvalid
    simp [answer, statusOf_decodeAnswer, hvalid]

/-- Settles O8. -/
theorem stepRunsTheDecodedRequest : Obligations.StepRunsTheDecodedRequest := by
  intro s r rest i hinputs hdecode
  rw [step_of_inputs_cons hinputs, serveInput, serveRequest_of_decode hdecode]
  rfl

end Sys2Proof.Machine

/-! ### The length bound, reads after writes, and steps without a machine fault -/

namespace Sys2Proof.Machine

open Sys2Proof.Safety

/-! #### A buffer -/

/-- What a buffer holds at an index after a write, in canonical form or not. -/
theorem Memory.read_write (m : Memory) (j : Nat) (v : Byte) (i : Nat) :
    (m.write j v).read i = if i = j then some v else m.read i := by
  induction m with
  | nil => rfl
  | cons c m ih =>
    obtain ⟨a, b⟩ := c
    rw [Memory.write]
    split
    · rfl
    · split
      · next heq =>
        subst heq
        by_cases hi : i = j <;> simp [Memory.read, hi]
      · next hne =>
        rw [Memory.read, Memory.read, ih]
        by_cases hi : i = a
        · subst hi
          simp [Ne.symm hne]
        · simp [hi]

/-! #### The length bound (R25) -/

theorem admits_iff {c : Config} {n : Nat} :
    c.admits n = true ↔ c.nmax = none ∨ ∃ bound, c.nmax = some bound ∧ n ≤ bound := by
  unfold Config.admits
  cases c.nmax with
  | none => simp
  | some bound => simp

theorem admits_eq_false_of_lt {c : Config} {bound n : Nat} (hbound : c.nmax = some bound) (hlt : bound < n) :
    c.admits n = false := by
  simp [Config.admits, hbound, hlt]

theorem finishBounded_of_not_admits {n : Nat} {s : State} (h : s.config.admits n = false) (i : Instr)
    (x : Except Abort Result) : finishBounded i n x s = .refused (.inputTooLong n) :=
  if_neg (Bool.eq_false_iff.1 h)

/-- An operation the implementation does not serve is refused as too long; only ENCODE and DECODE can be. -/
theorem exec_of_not_wellFormed {i : Instr} {s : State} (h : i.wellFormed s.config = false) :
    ∃ n, exec i s = .refused (.inputTooLong n) := by
  cases i with
  | v2s v => cases h
  | s2v c => cases h
  | pack3 b1 b2 b3 => cases h
  | unpack4 c1 c2 c3 c4 => cases h
  | encode input => exact ⟨input.length, finishBounded_of_not_admits h _ _⟩
  | decode input => exact ⟨input.length, finishBounded_of_not_admits h _ _⟩

/-! #### No machine fault -/

/-- An operation answers, or is refused as too long: its loops read no element that is not there (R88). -/
theorem exec_safe (i : Instr) (s : State) : safeOutcome (exec i s) := by
  cases hwf : i.wellFormed s.config with
  | true =>
    rw [exec_of_wellFormed hwf]
    trivial
  | false =>
    obtain ⟨n, hn⟩ := exec_of_not_wellFormed hwf
    rw [hn]
    trivial

theorem abandonInstead_safe (i : Instr) (s : State) : safeOutcome (abandonInstead i s) := by
  have hexec := exec_safe i s
  unfold abandonInstead
  cases hout : exec i s with
  | next t => trivial
  | fault r =>
    rw [hout] at hexec
    exact hexec
  | refused r => trivial

theorem serveRequest_safe {serve : Instr → State → Host.Outcome State Fault Refusal}
    (h : ∀ i s, safeOutcome (serve i s)) (r : Bits) (s : State) : safeOutcome (serveRequest serve r s) := by
  unfold serveRequest
  cases decode r with
  | ok i => exact h i s
  | error e => trivial

theorem serveInput_safe (x : HostInput) (s : State) : safeOutcome (serveInput x s) := by
  cases x with
  | request r => exact serveRequest_safe exec_safe r s
  | requestThenReset r => exact serveRequest_safe abandonInstead_safe r s
  | reset => trivial

/-! #### The obligations -/

/-- Settles O15: a step stays idle, or serves its oldest input without a machine fault. -/
theorem noStepReadsAMissingElement : Obligations.NoStepReadsAMissingElement := by
  intro s
  cases hinputs : s.inputs with
  | nil =>
    have hidle : step s = .next s := by simp [step, serveNext, hinputs]
    rw [hidle]
    trivial
  | cons x xs =>
    rw [step_of_inputs_cons hinputs]
    exact serveInput_safe x (s.withInputs xs)

/-- Settles O24. Canonical form is not needed: a write puts the element where a read first looks for it. -/
theorem bufferReadsWhatWasWritten : Obligations.BufferReadsWhatWasWritten := by
  intro m j v _
  refine ⟨?_, fun i hi => ?_⟩
  · rw [Memory.read_write, if_pos rfl]
  · rw [Memory.read_write, if_neg hi]

/-- Settles O23: a longer input meets the bound's refusal, an admitted one the response owed. -/
theorem inputLongerThanTheBoundIsRefused : Obligations.InputLongerThanTheBoundIsRefused := by
  refine ⟨fun s bound x hbound hlt => ?_, fun s x h => ?_, fun c n => admits_iff⟩
  · have hlong := admits_eq_false_of_lt hbound hlt
    exact ⟨finishBounded_of_not_admits hlong _ _, finishBounded_of_not_admits hlong _ _⟩
  · have hadmits := admits_iff.2 h
    exact ⟨⟨_, exec_of_wellFormed (i := .encode x) hadmits⟩, ⟨_, exec_of_wellFormed (i := .decode x) hadmits⟩⟩

end Sys2Proof.Machine

/-! ### Request words read and written, response words, and the operations' answers as tables and bit slices -/

namespace Sys2Proof

open Sys2Proof.Safety

/-! #### The operation select (R41, R50) -/

theorem opOfCode_eq_some_iff (op : BitVec 3) (o : OpSelect) : opOfCode op = some o ↔ op = opCode o := by
  cases o <;> revert op <;> decide

/-- The three bits in front of an operation's operands are its `op` value. -/
theorem opOfCode_fieldOf_eq_some_iff (o2 o1 o0 : Bool) (o : OpSelect) :
    opOfCode (fieldOf 3 [o2, o1, o0]) = some o ↔ [o2, o1, o0] = bitsOf (opCode o) := by
  rw [opOfCode_eq_some_iff]
  constructor
  · intro h
    rw [← h, bitsOf_fieldOf (w := 3) _ rfl]
  · intro h
    rw [h, fieldOf_bitsOf]

theorem opOfCode_fieldOf_eq_none {o2 o1 o0 : Bool} (h : opOfCode (fieldOf 3 [o2, o1, o0]) = none) :
    o2 = true ∧ o1 = true := by
  revert o2 o1 o0
  decide

/-! #### The operands (R42) -/

/-- The operand bits of a request read back as its operands. -/
theorem decodeOperands_operandBits (i : Instr) : decodeOperands (opSelectOf i) (operandBits i) = some i := by
  cases i with
  | v2s v => exact Laws.OperandField.v2s v
  | s2v c => exact Laws.OperandField.s2v c
  | pack3 b1 b2 b3 => exact Laws.OperandField.pack3 b1 b2 b3
  | unpack4 c1 c2 c3 c4 => exact Laws.OperandField.unpack4 c1 c2 c3 c4
  | encode input => exact Laws.OperandField.encode input
  | decode input => exact Laws.OperandField.decode input

/-- A field cut off the front of a bit string, and the rest. -/
theorem bitsOf_fieldOf_take_append {w : Nat} {x : Bits} (h : w ≤ x.length) :
    bitsOf (fieldOf w (x.take w)) ++ x.drop w = x := by
  rw [bitsOf_fieldOf _ (List.length_take_of_le h), List.take_append_drop]

/-- Three bytes read from 24 bits write back as those bits. -/
theorem operandBits_pack3_of_bits {x : Bits} (h : x.length = 24) :
    operandBits (.pack3 (fieldOf 8 (x.take 8)) (fieldOf 8 ((x.drop 8).take 8)) (fieldOf 8 (x.drop 16))) = x := by
  have first := bitsOf_fieldOf_take_append (w := 8) (x := x) (by omega)
  have second := bitsOf_fieldOf_take_append (w := 8) (x := x.drop 8) (by simp [h])
  have third := bitsOf_fieldOf (w := 8) (x.drop 16) (by simp [h])
  rw [List.drop_drop] at second
  rw [operandBits, third, List.append_assoc, second, first]

/-- Four values read from 24 bits write back as those bits. -/
theorem operandBits_unpack4_of_bits {x : Bits} (h : x.length = 24) :
    operandBits (.unpack4 (fieldOf 6 (x.take 6)) (fieldOf 6 ((x.drop 6).take 6)) (fieldOf 6 ((x.drop 12).take 6))
      (fieldOf 6 (x.drop 18))) = x := by
  have first := bitsOf_fieldOf_take_append (w := 6) (x := x) (by omega)
  have second := bitsOf_fieldOf_take_append (w := 6) (x := x.drop 6) (by simp [h])
  have third := bitsOf_fieldOf_take_append (w := 6) (x := x.drop 12) (by simp [h])
  have fourth := bitsOf_fieldOf (w := 6) (x.drop 18) (by simp [h])
  rw [List.drop_drop] at second third
  rw [operandBits, fourth, List.append_assoc, third, List.append_assoc, second, first]

/-- Bits that read as operands are the operand bits of the request they make. -/
theorem operandBits_of_decodeOperands {o : OpSelect} {x : Bits} {i : Instr} (h : decodeOperands o x = some i) :
    opSelectOf i = o ∧ operandBits i = x := by
  cases o with
  | v2s =>
    obtain ⟨hlen, ⟨⟩⟩ := Option.ite_none_right_eq_some.1 h
    exact ⟨rfl, bitsOf_fieldOf x hlen⟩
  | s2v =>
    obtain ⟨hlen, ⟨⟩⟩ := Option.ite_none_right_eq_some.1 h
    exact ⟨rfl, bitsOf_fieldOf x hlen⟩
  | pack3 =>
    obtain ⟨hlen, ⟨⟩⟩ := Option.ite_none_right_eq_some.1 h
    exact ⟨rfl, operandBits_pack3_of_bits hlen⟩
  | unpack4 =>
    obtain ⟨hlen, ⟨⟩⟩ := Option.ite_none_right_eq_some.1 h
    exact ⟨rfl, operandBits_unpack4_of_bits hlen⟩
  | encode =>
    obtain ⟨input, hinput, rfl⟩ := Option.map_eq_some_iff.1 h
    exact ⟨rfl, bitsOfBytes_of_bytesOfBits x input hinput⟩
  | decode =>
    obtain ⟨input, hinput, rfl⟩ := Option.map_eq_some_iff.1 h
    exact ⟨rfl, bitsOfBytes_of_bytesOfBits x input hinput⟩

/-! #### A whole request -/

/-- Reading a request is reading the operands of the operation its first three bits select. -/
theorem decode_cons_eq_ok_iff {o2 o1 o0 : Bool} {x : Bits} {i : Instr} :
    decode (o2 :: o1 :: o0 :: x) = .ok i ↔
      ∃ o, [o2, o1, o0] = bitsOf (opCode o) ∧ decodeOperands o x = some i := by
  simp only [decode, ← opOfCode_fieldOf_eq_some_iff]
  cases opOfCode (fieldOf 3 [o2, o1, o0]) with
  | none => simp
  | some o => cases hx : decodeOperands o x <;> simp [hx]

/-- No bit of a request is dropped by the decoder. -/
theorem decode_encode (i : Instr) : decode (encode i) = .ok i :=
  decode_cons_eq_ok_iff.2 ⟨opSelectOf i, rfl, decodeOperands_operandBits i⟩

/-- The decoder reads a bit string as an operation exactly when it is that operation's request word. -/
theorem decode_eq_ok_iff {r : Bits} {i : Instr} : decode r = .ok i ↔ encode i = r := by
  constructor
  · intro h
    match r, h with
    | o2 :: o1 :: o0 :: x, h =>
      obtain ⟨o, hselect, hoperands⟩ := decode_cons_eq_ok_iff.1 h
      obtain ⟨rfl, rfl⟩ := operandBits_of_decodeOperands hoperands
      exact congrArg (· ++ operandBits i) hselect.symm
  · rintro rfl
    exact decode_encode i

theorem decode_reserved (low : Bool) (operands : Bits) :
    decode (true :: true :: low :: operands) = .error (.reservedSelect (if low then 7 else 6)) := by
  cases low <;> rfl

/-- Only a bit string that starts with 110 or 111 is reported as a reserved select. -/
theorem exists_of_decode_eq_reservedSelect {r : Bits} {op : BitVec 3}
    (h : decode r = .error (.reservedSelect op)) : ∃ low operands, r = true :: true :: low :: operands := by
  unfold decode at h
  split at h
  · next o2 o1 o0 operands =>
    split at h
    · next hnone =>
      obtain ⟨rfl, rfl⟩ := opOfCode_fieldOf_eq_none hnone
      exact ⟨o0, operands, rfl⟩
    · split at h <;> cases h
  · cases h

theorem take_encode {i : Instr} {o : OpSelect} (h : opSelectOf i = o) : (encode i).take 3 = bitsOf (opCode o) := by
  rw [encode, h, List.take_left' (length_bitsOf _)]

theorem length_encode (i : Instr) : (encode i).length = 3 + (operandBits i).length := by
  simp [encode]

/-! #### The obligations -/

/-- Settles O2. -/
theorem decodeOfEncodeIsTheOperation : Obligations.DecodeOfEncodeIsTheOperation :=
  decode_encode

/-- Settles O3. -/
theorem encodeOfDecodeIsTheRequest : Obligations.EncodeOfDecodeIsTheRequest :=
  fun _ _ => decode_eq_ok_iff.1

/-- Settles O4: the operand bits have the widths of their lanes. -/
theorem requestWordHasItsSelectAndWidth : Obligations.RequestWordHasItsSelectAndWidth := by
  refine ⟨fun v => ⟨take_encode (o := .v2s) rfl, ?_⟩, fun c => ⟨take_encode (o := .s2v) rfl, ?_⟩,
    fun b1 b2 b3 => ⟨take_encode (o := .pack3) rfl, ?_⟩, fun c1 c2 c3 c4 => ⟨take_encode (o := .unpack4) rfl, ?_⟩,
    fun x => ⟨take_encode (o := .encode) rfl, ?_⟩, fun x => ⟨take_encode (o := .decode) rfl, ?_⟩⟩ <;>
  simp [length_encode, operandBits, length_bitsOfBytes]

/-- Settles O1: each word written out is the request word of its operation. -/
theorem decoderReadsTheSpecsRequestWords : Obligations.DecoderReadsTheSpecsRequestWords :=
  ⟨decode_encode (.v2s 19), decode_encode (.s2v 0x4A), decode_encode (.pack3 0x4D 0x61 0x6E),
    decode_encode (.unpack4 19 22 5 46), decode_encode (.encode [0x48, 0x65]), decode_encode (.decode [0x4A, 0x4D])⟩

end Sys2Proof

namespace Sys2Proof.Machine

open Sys2Proof.Safety

/-! #### Requests that are refused (R50, R51) -/

/-- A presented bit string that is no request is refused under the name of what is wrong with it. -/
theorem step_of_decode_error {s : State} {r : Bits} {rest : List HostInput} {e : DecodeError}
    (hinputs : s.inputs = .request r :: rest) (hdecode : decode r = .error e) :
    step s = .refused (refusalOf e) := by
  rw [step_of_inputs_cons hinputs]
  simp [serveInput, serveRequest, hdecode]

/-- Settles O5. -/
theorem reservedSelectIsRefusedByName : Obligations.ReservedSelectIsRefusedByName :=
  fun _ low operands _ hinputs => step_of_decode_error hinputs (decode_reserved low operands)

/-- Settles O6: every error of the decoder but the reserved select is a malformed request. -/
theorem bitStringOfNoFormIsRefused : Obligations.BitStringOfNoFormIsRefused := by
  intro s r rest hinputs hnone hselect
  cases hdecode : decode r with
  | ok i => exact absurd (decode_eq_ok_iff.1 hdecode) (hnone i)
  | error e =>
    rw [step_of_decode_error hinputs hdecode]
    cases e with
    | noSelect => rfl
    | operandWidth op => rfl
    | reservedSelect op =>
      obtain ⟨low, operands, rfl⟩ := exists_of_decode_eq_reservedSelect hdecode
      rcases hselect with hshort | htop
      · simp only [List.length_cons] at hshort
        omega
      · exact absurd rfl htop

/-! #### Valid strings (R58) -/

theorem validString_iff (x : List SymbolCode) :
    validString x = true ↔ x.length % 4 = 0 ∧ ∀ c ∈ x, c.toNat ∈ alphabetCodes := by
  simp [validString, legal_iff_mem]

theorem decodeAnswer_of_validString {x : List SymbolCode} (h : validString x = true) :
    decodeAnswer x = .ok (.byteSequence (codecDecode x)) := by
  obtain ⟨hlen, hlegal⟩ : x.length % 4 = 0 ∧ x.all legal = true := by simpa [validString] using h
  rw [decodeAnswer, completeGroups_of_length hlen, (findIdx?_illegal_eq_none_iff x).2 hlegal]
  exact if_pos hlen

/-- DECODE's answer is OK on the valid strings and on no others. -/
theorem decodeAnswer_eq_ok_iff {x : List SymbolCode} {r : Result} :
    decodeAnswer x = .ok r ↔ validString x = true ∧ r = .byteSequence (codecDecode x) := by
  constructor
  · intro h
    have hstatus := statusOf_decodeAnswer x
    rw [h] at hstatus
    have hvalid : validString x = true := by
      by_contra hinvalid
      rw [if_neg hinvalid] at hstatus
      cases hstatus
    rw [decodeAnswer_of_validString hvalid] at h
    exact ⟨hvalid, (Response.ok.inj h).symm⟩
  · rintro ⟨hvalid, rfl⟩
    exact decodeAnswer_of_validString hvalid

theorem legal_of_mem_groupSymbols {b1 b2 b3 : Byte} {c : SymbolCode} (h : c ∈ groupSymbols b1 b2 b3) :
    legal c = true := by
  obtain ⟨k, -, rfl⟩ := List.mem_map.1 h
  exact legal_tableCode _

/-- ENCODE writes symbols of the table only. -/
theorem legal_of_mem_codecEncode {x : List Byte} {c : SymbolCode} (h : c ∈ codecEncode x) : legal c = true := by
  induction x using codecEncode.induct with
  | case1 => cases h
  | case2 b1 => exact legal_of_mem_groupSymbols h
  | case3 b1 b2 => exact legal_of_mem_groupSymbols h
  | case4 b1 b2 b3 rest ih =>
    rcases List.mem_append.1 h with hgroup | hrest
    · exact legal_of_mem_groupSymbols hgroup
    · exact ih hrest

/-- Settles O44. -/
theorem decodeAcceptsExactlyTheValidStrings : Obligations.DecodeAcceptsExactlyTheValidStrings := by
  refine ⟨fun x s hadmits => ?_, fun x s out hexec => ?_⟩
  · rw [← validString_iff]
    constructor
    · rintro ⟨r, hexec⟩
      exact (decodeAnswer_eq_ok_iff.1 (eq_answer_of_exec hexec).symm).1
    · intro hvalid
      refine ⟨.byteSequence (codecDecode x), ?_⟩
      rw [exec_of_wellFormed (i := .decode x) hadmits, answer, decodeAnswer_of_validString hvalid]
  · obtain rfl : out = codecEncode x := by simpa [answer] using eq_answer_of_exec hexec
    refine ⟨?_, fun c hc => (legal_iff_mem c).1 (legal_of_mem_codecEncode hc)⟩
    rw [length_codecEncode]
    omega

/-! #### Response words (R42) -/

/-- Settles O7: the result is the one owed, and its word has the width of its row. -/
theorem responseWordHasItsWidth : Obligations.ResponseWordHasItsWidth := by
  intro i s r hexec
  have hanswer := eq_answer_of_exec hexec
  cases i with
  | v2s v => cases hanswer; exact length_bitsOf _
  | s2v c =>
    rw [answer] at hanswer
    split at hanswer
    · cases hanswer; exact length_bitsOf _
    · cases hanswer
  | pack3 b1 b2 b3 => cases hanswer; exact length_bitsOf _
  | unpack4 c1 c2 c3 c4 => cases hanswer; exact length_bitsOf _
  | encode x =>
    cases hanswer
    simp [responseWord, length_bitsOfBytes, length_codecEncode]
  | decode x =>
    obtain ⟨-, rfl⟩ := decodeAnswer_eq_ok_iff.1 hanswer.symm
    simp [responseWord, length_bitsOfBytes, length_codecDecode]

/-! #### S2V and the table (R47 to R49) -/

theorem alphabetCodes_getElem? (v : Sextet) : alphabetCodes[v.toNat]? = some (tableCode v).toNat := by
  revert v; decide

/-- Settles O28: the value answered is the row of the code. -/
theorem s2vCompletesOnTheTable : Obligations.S2vCompletesOnTheTable := by
  intro c s hc
  have hlegal := (legal_iff_mem c).2 hc
  refine ⟨tableValue c, ?_, ?_⟩
  · rw [alphabetCodes_getElem?, tableCode_tableValue hlegal]
  · rw [exec_of_wellFormed (i := .s2v c) rfl, answer, if_pos hlegal]

/-- Settles O29. -/
theorem s2vFaultsOutsideTheTable : Obligations.S2vFaultsOutsideTheTable := by
  intro c s hc
  rw [exec_of_wellFormed (i := .s2v c) rfl, answer, if_neg (mt (legal_iff_mem c).1 hc)]

/-! #### The packer as bit slices (R43 to R45) -/

/-- A word is the concatenation of its high and its low bits. -/
theorem eq_append_of_getLsbD {n m : Nat} {x : BitVec (n + m)} {high : BitVec n} {low : BitVec m}
    (hlow : ∀ k < m, x.getLsbD k = low.getLsbD k) (hhigh : ∀ k < n, x.getLsbD (m + k) = high.getLsbD k) :
    x = high ++ low := by
  apply BitVec.eq_of_getLsbD_eq
  intro k hk
  rw [BitVec.getLsbD_append]
  by_cases hkm : k < m
  · simpa [hkm] using hlow k hkm
  · simpa [hkm, show m + (k - m) = k by omega] using hhigh (k - m) (by omega)

theorem packFirst_eq_slice (b1 : Byte) : packFirst b1 = b1.extractLsb' 2 6 := by
  ext k hk
  interval_cases k <;> simp [packFirst]

theorem packSecond_eq_slices (b1 b2 : Byte) :
    packSecond b1 b2 = b1.extractLsb' 0 2 ++ b2.extractLsb' 4 4 := by
  refine eq_append_of_getLsbD (n := 2) (m := 4) (fun k hk => ?_) (fun k hk => ?_) <;>
  interval_cases k <;> simp [packSecond]

theorem packThird_eq_slices (b2 b3 : Byte) :
    packThird b2 b3 = b2.extractLsb' 0 4 ++ b3.extractLsb' 6 2 := by
  refine eq_append_of_getLsbD (n := 4) (m := 2) (fun k hk => ?_) (fun k hk => ?_) <;>
  interval_cases k <;> simp [packThird]

theorem packFourth_eq_slice (b3 : Byte) : packFourth b3 = b3.extractLsb' 0 6 := by
  ext k hk
  interval_cases k <;> simp [packFourth]

theorem unpackFirst_eq_slices (c1 c2 : Sextet) : unpackFirst c1 c2 = c1 ++ c2.extractLsb' 4 2 := by
  refine eq_append_of_getLsbD (n := 6) (m := 2) (fun k hk => ?_) (fun k hk => ?_) <;>
  interval_cases k <;> simp [unpackFirst]

theorem unpackSecond_eq_slices (c2 c3 : Sextet) :
    unpackSecond c2 c3 = c2.extractLsb' 0 4 ++ c3.extractLsb' 2 4 := by
  refine eq_append_of_getLsbD (n := 4) (m := 4) (fun k hk => ?_) (fun k hk => ?_) <;>
  interval_cases k <;> simp [unpackSecond]

theorem unpackThird_eq_slices (c3 c4 : Sextet) : unpackThird c3 c4 = c3.extractLsb' 0 2 ++ c4 := by
  refine eq_append_of_getLsbD (n := 2) (m := 6) (fun k hk => ?_) (fun k hk => ?_) <;>
  interval_cases k <;> simp [unpackThird]

/-- Settles O34: each formula of R67 is a bit slice. -/
theorem pack3AnswersTheBitSlices : Obligations.Pack3AnswersTheBitSlices := by
  intro b1 b2 b3 s
  rw [← packFirst_eq_slice, ← packSecond_eq_slices, ← packThird_eq_slices, ← packFourth_eq_slice]
  rfl

/-- Settles O35: each formula of R68 is a bit slice. -/
theorem unpack4AnswersTheBitSlices : Obligations.Unpack4AnswersTheBitSlices := by
  intro c1 c2 c3 c4 s
  rw [← unpackFirst_eq_slices, ← unpackSecond_eq_slices, ← unpackThird_eq_slices]
  rfl

/-- Settles O36: the fields of a view, put together, are the group word. -/
theorem packerKeepsTheGroupWord : Obligations.PackerKeepsTheGroupWord := by
  intro w s
  refine ⟨⟨?_, congrArg bitsOf (valueFields_append w)⟩, ⟨?_, congrArg bitsOf (byteFields_append w)⟩⟩
  · rw [exec_of_wellFormed rfl, answer, byteFields_append]
  · rw [exec_of_wellFormed rfl, answer, valueFields_append]

end Sys2Proof.Machine

/-! ### The Symbol Table as formulas and as a bijection (R59 to R62) -/

namespace Sys2Proof.Machine

open Sys2Proof.Safety

/-! #### The ordered tests, on natural numbers -/

/-- The 8-bit sums of R59 do not wrap. -/
theorem toNat_valueToSymbol (v : Sextet) :
    (valueToSymbol v).toNat =
      if v.toNat ≤ 9 then v.toNat + 48
      else if v.toNat ≤ 35 then v.toNat + 55
      else if v.toNat ≤ 61 then v.toNat + 61
      else if v.toNat = 62 then 45
      else 95 := by
  have hsum (k : Nat) (hk : k ≤ 61) : (v.setWidth 8 + BitVec.ofNat 8 k).toNat = v.toNat + k := by
    rw [BitVec.toNat_add, BitVec.toNat_setWidth, BitVec.toNat_ofNat]
    omega
  have hhyphen : (v = 62) = (v.toNat = 62) := propext (BitVec.toNat_inj (y := 62)).symm
  simp only [valueToSymbol, apply_ite BitVec.toNat]
  exact ite_congr rfl (fun _ => hsum 48 (by decide)) fun _ => ite_congr rfl (fun _ => hsum 55 (by decide)) fun _ =>
    ite_congr rfl (fun _ => hsum 61 (by decide)) fun _ => ite_congr hhyphen (fun _ => rfl) fun _ => rfl

/-- The 8-bit differences of R60 do not wrap. -/
theorem setWidth_sub_eq_ofNat {c k : SymbolCode} (h : k ≤ c) :
    (c - k).setWidth 6 = BitVec.ofNat 6 (c.toNat - k.toNat) := by
  rw [← BitVec.toNat_sub_of_le h]
  rfl

theorem symbolToValue_eq_orderedTests (c : SymbolCode) :
    symbolToValue c =
      if c.toNat = 95 then some 63
      else if c.toNat = 45 then some 62
      else if 97 ≤ c.toNat ∧ c.toNat ≤ 122 then some (BitVec.ofNat 6 (c.toNat - 61))
      else if 65 ≤ c.toNat ∧ c.toNat ≤ 90 then some (BitVec.ofNat 6 (c.toNat - 55))
      else if 48 ≤ c.toNat ∧ c.toNat ≤ 57 then some (BitVec.ofNat 6 (c.toNat - 48))
      else none := by
  have hcode (k : SymbolCode) : (c = k) = (c.toNat = k.toNat) := propext BitVec.toNat_inj.symm
  refine ite_congr (hcode 95) (fun _ => rfl) fun _ => ite_congr (hcode 45) (fun _ => rfl) fun _ => ?_
  refine ite_congr rfl (fun hlower => ?_) fun _ => ite_congr rfl (fun hupper => ?_) fun _ =>
    ite_congr rfl (fun hdigit => ?_) fun _ => rfl
  · exact congrArg some (setWidth_sub_eq_ofNat (k := 61) (BitVec.le_trans (y := 97) (by decide) hlower.1))
  · exact congrArg some (setWidth_sub_eq_ofNat (k := 55) (BitVec.le_trans (y := 65) (by decide) hupper.1))
  · exact congrArg some (setWidth_sub_eq_ofNat (k := 48) hdigit.1)

/-! #### The two operations -/

/-- S2V's response: the value, or the fault at index 0 (R60, R102). -/
def s2vResponse : Option Sextet → Response
  | some v => .ok (.value v)
  | none => .fault ⟨.alphabet, .badSymbol, 0⟩

theorem exec_s2v_eq_s2vResponse (c : SymbolCode) (s : State) :
    exec (.s2v c) s = .next (answered s (.s2v c) (s2vResponse (symbolToValue c))) := by
  rw [exec, execS2v, valueOrFault]
  cases symbolToValue c with
  | some v => rfl
  | none => rfl

theorem encode_v2s (v : Sextet) : encode (.v2s v) = bits [0,0,0] ++ bitsOf v := by
  have hselect : bitsOf (opCode .v2s) = bits [0,0,0] := by decide
  exact congrArg (· ++ bitsOf v) hselect

theorem encode_s2v (c : SymbolCode) : encode (.s2v c) = bits [0,0,1] ++ bitsOf c := by
  have hselect : bitsOf (opCode .s2v) = bits [0,0,1] := by decide
  exact congrArg (· ++ bitsOf c) hselect

theorem exec_v2s (v : Sextet) (s : State) :
    exec (.v2s v) s = .next (answered s (.v2s v) (.ok (.symbol (tableCode v)))) :=
  exec_of_wellFormed rfl

theorem exec_s2v_of_legal {c : SymbolCode} (h : legal c = true) (s : State) :
    exec (.s2v c) s = .next (answered s (.s2v c) (.ok (.value (tableValue c)))) := by
  rw [exec_of_wellFormed (i := .s2v c) rfl, answer, if_pos h]

theorem eq_tableCode_of_exec_v2s {v : Sextet} {s : State} {c : SymbolCode}
    (h : exec (.v2s v) s = .next (answered s (.v2s v) (.ok (.symbol c)))) : c = tableCode v := by
  cases eq_answer_of_exec h
  rfl

/-! #### The table -/

theorem tableCode_injective : Function.Injective tableCode :=
  Function.LeftInverse.injective tableValue_tableCode

/-- The legal codes among the 256 are the 64 of the alphabet, which has none twice (R46). -/
theorem countP_legal : (List.range 256).countP (fun c => legal (BitVec.ofNat 8 c)) = 64 := by
  have hlt : ∀ c ∈ alphabetCodes, c < 256 := by decide
  have hnodup : alphabetCodes.Nodup := by decide
  have hperm : ((List.range 256).filter (fun c => legal (BitVec.ofNat 8 c))).Perm alphabetCodes := by
    refine (List.perm_ext_iff_of_nodup (List.nodup_range.filter _) hnodup).2 fun c => ?_
    rw [List.mem_filter, List.mem_range, legal_iff_mem, BitVec.toNat_ofNat]
    constructor
    · rintro ⟨hc, hmem⟩
      rwa [Nat.mod_eq_of_lt hc] at hmem
    · intro hmem
      exact ⟨hlt c hmem, by rwa [Nat.mod_eq_of_lt (hlt c hmem)]⟩
  rw [List.countP_eq_length_filter, hperm.length_eq]
  rfl

/-! #### The obligations -/

/-- Settles O26: the code is the one the model's tests give, computed without wrapping. -/
theorem v2sAnswersTheSymbolCode : Obligations.V2sAnswersTheSymbolCode :=
  fun v _ => ⟨valueToSymbol v, rfl, toNat_valueToSymbol v, encode_v2s v, rfl⟩

/-- Settles O27: the response to each arm of the tests on natural numbers. -/
theorem s2vFollowsTheOrderedTests : Obligations.S2vFollowsTheOrderedTests := by
  refine fun c s => ⟨?_, encode_s2v c, fun _ => rfl⟩
  rw [exec_s2v_eq_s2vResponse, symbolToValue_eq_orderedTests]
  simp only [apply_ite s2vResponse]
  rfl

/-- Settles O30: the row of a code is the value whose code it is. -/
theorem s2vGivesBackWhatV2sWasGiven : Obligations.S2vGivesBackWhatV2sWasGiven := by
  refine fun v s => ⟨tableCode v, exec_v2s v s, ?_⟩
  rw [exec_s2v_of_legal (legal_tableCode v), tableValue_tableCode]

/-- Settles O31: `tableValue` undoes `tableCode`, and on legal codes `tableCode` undoes `tableValue`. -/
theorem symbolTableIsABijection : Obligations.SymbolTableIsABijection := by
  refine ⟨fun v w s c hv hw => ?_, fun c s hlegal => ⟨tableValue c, exec_s2v_of_legal hlegal s, ?_⟩, countP_legal⟩
  · exact tableCode_injective ((eq_tableCode_of_exec_v2s hv).symm.trans (eq_tableCode_of_exec_v2s hw))
  · rw [exec_v2s, tableCode_tableValue hlegal]

end Sys2Proof.Machine

/-! ### The Bit Packer as formulas and as a bijection (R67 to R73) -/

namespace Sys2Proof.Machine

open Sys2Proof.Safety

/-! #### The formulas, on natural numbers (R70: no part of them wraps) -/

/-- Two parts of a formula joined: nothing is lost when both fit the lane. -/
theorem toNat_setWidth_shiftLeft_or {w k m : Nat} {high low : BitVec w} (hkw : k ≤ w)
    (hhigh : high.toNat <<< m < 2 ^ k) (hlow : low.toNat < 2 ^ k) :
    ((high <<< m ||| low).setWidth k).toNat = high.toNat <<< m ||| low.toNat := by
  have hshift : (high <<< m).toNat = high.toNat <<< m := by
    rw [BitVec.toNat_shiftLeft, Nat.mod_eq_of_lt (hhigh.trans_le (Nat.pow_le_pow_right (by decide) hkw))]
  rw [BitVec.toNat_setWidth, BitVec.toNat_or, hshift, Nat.mod_eq_of_lt (Nat.or_lt_two_pow hhigh hlow)]

/-- The bits a left shift loses are above the mask. -/
theorem toNat_shiftLeft_and {w : Nat} (x mask : BitVec w) (m : Nat) :
    (x <<< m &&& mask).toNat = x.toNat <<< m &&& mask.toNat := by
  calc (x <<< m &&& mask).toNat
      = x.toNat <<< m % 2 ^ w &&& mask.toNat % 2 ^ w := by
        rw [BitVec.toNat_and, BitVec.toNat_shiftLeft, BitVec.toNat_mod_cancel]
    _ = x.toNat <<< m &&& mask.toNat := by
        rw [← Nat.and_mod_two_pow, Nat.mod_eq_of_lt (Nat.and_lt_two_pow _ mask.isLt)]

theorem toNat_ushiftRight_lt_of_le {w m k : Nat} (x : BitVec w) (hmw : m ≤ w) (hk : w - m ≤ k) :
    (x >>> m).toNat < 2 ^ k :=
  (x.toNat_ushiftRight_lt m hmw).trans_le (Nat.pow_le_pow_right (by decide) hk)

theorem toNat_packFirst (b1 : Byte) : (packFirst b1).toNat = b1.toNat >>> 2 := by
  rw [packFirst, BitVec.toNat_setWidth, Nat.mod_eq_of_lt (b1.toNat_ushiftRight_lt 2 (by decide)),
    BitVec.toNat_ushiftRight]

theorem toNat_packSecond (b1 b2 : Byte) :
    (packSecond b1 b2).toNat = ((b1.toNat &&& 0x03) <<< 4) ||| (b2.toNat >>> 4) :=
  toNat_setWidth_shiftLeft_or (high := b1 &&& 0x03) (low := b2 >>> 4) (by decide)
    (Nat.shiftLeft_lt (n := 2) (Nat.and_lt_two_pow _ (by decide)))
    (toNat_ushiftRight_lt_of_le b2 (by decide) (by decide))

theorem toNat_packThird (b2 b3 : Byte) :
    (packThird b2 b3).toNat = ((b2.toNat &&& 0x0F) <<< 2) ||| (b3.toNat >>> 6) :=
  toNat_setWidth_shiftLeft_or (high := b2 &&& 0x0F) (low := b3 >>> 6) (by decide)
    (Nat.shiftLeft_lt (n := 4) (Nat.and_lt_two_pow _ (by decide)))
    (toNat_ushiftRight_lt_of_le b3 (by decide) (by decide))

theorem toNat_packFourth (b3 : Byte) : (packFourth b3).toNat = b3.toNat &&& 0x3F := by
  rw [packFourth, BitVec.toNat_setWidth, BitVec.toNat_and]
  exact Nat.mod_eq_of_lt (Nat.and_lt_two_pow _ (by decide))

/-! With the last byte of a formula zero, only its shifted part is left (R73). -/

theorem toNat_packSecond_zero (b1 : Byte) : (packSecond b1 0).toNat = (b1.toNat &&& 0x03) <<< 4 :=
  (toNat_packSecond b1 0).trans (Nat.or_zero _)

theorem toNat_packThird_zero (b2 : Byte) : (packThird b2 0).toNat = (b2.toNat &&& 0x0F) <<< 2 :=
  (toNat_packThird b2 0).trans (Nat.or_zero _)

/-- A value on the byte-wide lane is the same number. -/
theorem toNat_setWidth_sextet (c : Sextet) : (c.setWidth 8).toNat = c.toNat :=
  BitVec.toNat_setWidth_of_le (by decide)

theorem toNat_unpackFirst (c1 c2 : Sextet) :
    (unpackFirst c1 c2).toNat = (c1.toNat <<< 2) ||| ((c2.toNat >>> 4) &&& 0x03) := by
  have hjoin := toNat_setWidth_shiftLeft_or (k := 8) (m := 2) (high := c1.setWidth 8)
    (low := (c2.setWidth 8 >>> 4) &&& 0x03) (by decide)
    (by rw [toNat_setWidth_sextet]; exact Nat.shiftLeft_lt c1.isLt) (BitVec.isLt _)
  rwa [BitVec.setWidth_eq, BitVec.toNat_and, BitVec.toNat_ushiftRight, toNat_setWidth_sextet,
    toNat_setWidth_sextet] at hjoin

theorem toNat_unpackSecond (c2 c3 : Sextet) :
    (unpackSecond c2 c3).toNat = ((c2.toNat <<< 4) &&& 0xF0) ||| ((c3.toNat >>> 2) &&& 0x0F) := by
  rw [unpackSecond, BitVec.toNat_or, toNat_shiftLeft_and, BitVec.toNat_and, BitVec.toNat_ushiftRight,
    toNat_setWidth_sextet, toNat_setWidth_sextet]
  rfl

theorem toNat_unpackThird (c3 c4 : Sextet) :
    (unpackThird c3 c4).toNat = ((c3.toNat <<< 6) &&& 0xC0) ||| (c4.toNat &&& 0x3F) := by
  rw [unpackThird, BitVec.toNat_or, toNat_shiftLeft_and, BitVec.toNat_and, toNat_setWidth_sextet,
    toNat_setWidth_sextet]
  rfl

/-! #### The two operations -/

theorem exec_pack3 (b1 b2 b3 : Byte) (s : State) :
    exec (.pack3 b1 b2 b3) s = .next (answered s (.pack3 b1 b2 b3)
      (.ok (.values (packFirst b1) (packSecond b1 b2) (packThird b2 b3) (packFourth b3)))) := rfl

theorem exec_unpack4 (c1 c2 c3 c4 : Sextet) (s : State) :
    exec (.unpack4 c1 c2 c3 c4) s = .next (answered s (.unpack4 c1 c2 c3 c4)
      (.ok (.bytes (unpackFirst c1 c2) (unpackSecond c2 c3) (unpackThird c3 c4)))) := rfl

theorem encode_pack3 (b1 b2 b3 : Byte) :
    encode (.pack3 b1 b2 b3) = bits [0,1,0] ++ bitsOf b1 ++ bitsOf b2 ++ bitsOf b3 := by
  have hselect : bitsOf (opCode .pack3) = bits [0,1,0] := by decide
  simp only [encode, opSelectOf, operandBits, hselect, List.append_assoc]

theorem encode_unpack4 (c1 c2 c3 c4 : Sextet) :
    encode (.unpack4 c1 c2 c3 c4) = bits [0,1,1] ++ bitsOf c1 ++ bitsOf c2 ++ bitsOf c3 ++ bitsOf c4 := by
  have hselect : bitsOf (opCode .unpack4) = bits [0,1,1] := by decide
  simp only [encode, opSelectOf, operandBits, hselect, List.append_assoc]

theorem responseWord_values (c1 c2 c3 c4 : Sextet) :
    responseWord (.values c1 c2 c3 c4) = bitsOf c1 ++ bitsOf c2 ++ bitsOf c3 ++ bitsOf c4 := by
  simp only [responseWord, groupOfValues, bitsOf_append]

theorem responseWord_bytes (b1 b2 b3 : Byte) :
    responseWord (.bytes b1 b2 b3) = bitsOf b1 ++ bitsOf b2 ++ bitsOf b3 := by
  simp only [responseWord, groupOfBytes, bitsOf_append]

/-! #### The fields of a group word put together from its parts (R43) -/

theorem byteField_append_zero (b1 b2 b3 : Byte) : byteField (b1 ++ b2 ++ b3) 0 = b1 :=
  (BitVec.extractLsb'_append_eq_of_le (xhi := b1 ++ b2) (by decide)).trans BitVec.extractLsb'_append_eq_left

theorem byteField_append_one (b1 b2 b3 : Byte) : byteField (b1 ++ b2 ++ b3) 1 = b2 :=
  (BitVec.extractLsb'_append_eq_of_le (xhi := b1 ++ b2) (by decide)).trans BitVec.extractLsb'_append_eq_right

theorem byteField_append_two (b1 b2 b3 : Byte) : byteField (b1 ++ b2 ++ b3) 2 = b3 :=
  BitVec.extractLsb'_append_eq_right (a := b1 ++ b2)

theorem valueField_append_zero (c1 c2 c3 c4 : Sextet) : valueField (c1 ++ c2 ++ c3 ++ c4) 0 = c1 :=
  ((BitVec.extractLsb'_append_eq_of_le (xhi := c1 ++ c2 ++ c3) (by decide)).trans
    (BitVec.extractLsb'_append_eq_of_le (xhi := c1 ++ c2) (by decide))).trans BitVec.extractLsb'_append_eq_left

theorem valueField_append_one (c1 c2 c3 c4 : Sextet) : valueField (c1 ++ c2 ++ c3 ++ c4) 1 = c2 :=
  ((BitVec.extractLsb'_append_eq_of_le (xhi := c1 ++ c2 ++ c3) (by decide)).trans
    (BitVec.extractLsb'_append_eq_of_le (xhi := c1 ++ c2) (by decide))).trans BitVec.extractLsb'_append_eq_right

theorem valueField_append_two (c1 c2 c3 c4 : Sextet) : valueField (c1 ++ c2 ++ c3 ++ c4) 2 = c3 :=
  (BitVec.extractLsb'_append_eq_of_le (xhi := c1 ++ c2 ++ c3) (by decide)).trans
    (BitVec.extractLsb'_append_eq_right (a := c1 ++ c2))

theorem valueField_append_three (c1 c2 c3 c4 : Sextet) : valueField (c1 ++ c2 ++ c3 ++ c4) 3 = c4 :=
  BitVec.extractLsb'_append_eq_right (a := c1 ++ c2 ++ c3)

/-! #### The obligations -/

/-- Settles O32: no part of the formulas of R67 wraps in eight bits or leaves the 6-bit lane. -/
theorem pack3AnswersTheFormulas : Obligations.Pack3AnswersTheFormulas :=
  fun b1 b2 b3 s => ⟨_, _, _, _, exec_pack3 b1 b2 b3 s, toNat_packFirst b1, toNat_packSecond b1 b2,
    toNat_packThird b2 b3, toNat_packFourth b3, encode_pack3 b1 b2 b3, responseWord_values _ _ _ _⟩

/-- Settles O33: what the shifts of R68 lose in eight bits is above their masks. -/
theorem unpack4AnswersTheFormulas : Obligations.Unpack4AnswersTheFormulas :=
  fun c1 c2 c3 c4 s => ⟨_, _, _, exec_unpack4 c1 c2 c3 c4 s, toNat_unpackFirst c1 c2, toNat_unpackSecond c2 c3,
    toNat_unpackThird c3 c4, encode_unpack4 c1 c2 c3 c4, responseWord_bytes _ _ _⟩

/-- Settles O37: PACK3 and UNPACK4 both keep the group word, and the word's bytes are those PACK3 was given. -/
theorem unpack4GivesBackWhatPack3WasGiven : Obligations.Unpack4GivesBackWhatPack3WasGiven := by
  intro b1 b2 b3 s
  obtain ⟨⟨hpack, -⟩, hunpack, -⟩ := packerKeepsTheGroupWord (b1 ++ b2 ++ b3) s
  rw [byteField_append_zero, byteField_append_one, byteField_append_two] at hpack hunpack
  exact ⟨_, _, _, _, hpack, hunpack⟩

/-- Settles O38: PACK3 and UNPACK4 both keep the group word, and the word's values are those UNPACK4 was given. -/
theorem pack3GivesBackWhatUnpack4WasGiven : Obligations.Pack3GivesBackWhatUnpack4WasGiven := by
  intro c1 c2 c3 c4 s
  obtain ⟨⟨hpack, -⟩, hunpack, -⟩ := packerKeepsTheGroupWord (c1 ++ c2 ++ c3 ++ c4) s
  rw [valueField_append_zero, valueField_append_one, valueField_append_two, valueField_append_three] at hpack hunpack
  exact ⟨_, _, _, hunpack, hpack⟩

/-- Settles O39: a zero byte adds nothing to the formula it stands in, and what is left is a left shift. -/
theorem zeroBytesClearTheirBits : Obligations.ZeroBytesClearTheirBits := by
  refine ⟨fun b1 b2 s => ⟨_, _, packThird b2 0, exec_pack3 b1 b2 0 s, toNat_packThird_zero b2, ?_⟩,
    fun b1 s => ⟨_, packSecond b1 0, exec_pack3 b1 0 0 s, toNat_packSecond_zero b1, ?_⟩⟩
  · rw [toNat_packThird_zero, Nat.shiftLeft_eq]
    exact Nat.mul_mod_left _ 4
  · rw [toNat_packSecond_zero, Nat.shiftLeft_eq]
    exact Nat.mul_mod_left _ 16

end Sys2Proof.Machine

/-! ### The Custom Codec: ENCODE and DECODE group by group, and their round trips (R74 to R86) -/

namespace Sys2Proof.Machine

open Sys2Proof.Safety

/-! #### The two operations -/

theorem exec_encode {x : List Byte} {s : State} (h : s.config.admits x.length = true) :
    exec (.encode x) s = .next (answered s (.encode x) (.ok (.symbolString (codecEncode x)))) :=
  exec_of_wellFormed h

theorem eq_codecEncode_of_exec {x : List Byte} {s : State} {out : List SymbolCode}
    (h : exec (.encode x) s = .next (answered s (.encode x) (.ok (.symbolString out)))) : out = codecEncode x := by
  cases eq_answer_of_exec h
  rfl

theorem exec_decode {x : List SymbolCode} {s : State} (h : s.config.admits x.length = true) :
    exec (.decode x) s = .next (answered s (.decode x) (decodeAnswer x)) :=
  exec_of_wellFormed h

theorem exec_decode_of_validString {x : List SymbolCode} {s : State} (h : s.config.admits x.length = true)
    (hvalid : validString x = true) :
    exec (.decode x) s = .next (answered s (.decode x) (.ok (.byteSequence (codecDecode x)))) := by
  rw [exec_decode h, decodeAnswer_of_validString hvalid]

/-- A bound that admits a length admits every shorter one (R25). -/
theorem admits_of_le {c : Config} {m n : Nat} (h : c.admits n = true) (hle : m ≤ n) : c.admits m = true :=
  admits_iff.2 ((admits_iff.1 h).imp_right fun ⟨bound, hbound, hn⟩ => ⟨bound, hbound, hle.trans hn⟩)

/-- Every bound admits the empty input. -/
theorem admits_zero (c : Config) : c.admits 0 = true := by
  rw [admits_iff]
  cases c.nmax with
  | none => exact .inl rfl
  | some bound => exact .inr ⟨bound, rfl, Nat.zero_le bound⟩

theorem validString_codecEncode (x : List Byte) : validString (codecEncode x) = true := by
  refine (validString_iff _).2 ⟨?_, fun c hc => (legal_iff_mem c).1 (legal_of_mem_codecEncode hc)⟩
  rw [length_codecEncode]
  exact Nat.mul_mod_right 4 _

/-! #### The elements of a group -/

theorem length_groupSymbols (b1 b2 b3 : Byte) : (groupSymbols b1 b2 b3).length = 4 := rfl

theorem length_groupBytes (s1 s2 s3 s4 : SymbolCode) : (groupBytes s1 s2 s3 s4).length = 3 := rfl

theorem groupSymbols_getElem? (b1 b2 b3 : Byte) {k : Nat} (hk : k < 4) :
    (groupSymbols b1 b2 b3)[k]? = some (tableCode (valueField (b1 ++ b2 ++ b3) k)) := by
  simp [groupSymbols, hk]

theorem groupBytes_getElem? (s1 s2 s3 s4 : SymbolCode) {k : Nat} (hk : k < 3) :
    (groupBytes s1 s2 s3 s4)[k]? =
      some (byteField (tableValue s1 ++ tableValue s2 ++ tableValue s3 ++ tableValue s4) k) := by
  simp [groupBytes, hk]

/-- Symbol `k` of group `g` of an encoding: the table's code of 6-bit field `k` of the group's three bytes, a missing
byte being zero (R74, R75). -/
theorem codecEncode_getElem? {x : List Byte} {g k : Nat} (hg : g < (x.length + 2) / 3) (hk : k < 4) :
    (codecEncode x)[4 * g + k]? =
      some (tableCode (valueField (x.getD (3 * g) 0 ++ x.getD (3 * g + 1) 0 ++ x.getD (3 * g + 2) 0) k)) := by
  induction g generalizing x with
  | zero =>
    have hne : x ≠ [] := by rintro rfl; simp at hg
    rw [codecEncode_cons hne, List.getElem?_append_left (by rw [length_groupSymbols]; omega), Nat.mul_zero,
      Nat.zero_add, groupSymbols_getElem? _ _ _ hk]
  | succ g ih =>
    have hne : x ≠ [] := by rintro rfl; simp at hg
    rw [codecEncode_cons hne, List.getElem?_append_right (by rw [length_groupSymbols]; omega), length_groupSymbols,
      show 4 * (g + 1) + k - 4 = 4 * g + k by omega, ih (by rw [List.length_drop]; omega)]
    simp [Nat.mul_add, Nat.add_comm, Nat.add_left_comm]

theorem codecDecode_cons {x : List SymbolCode} (h : 4 ≤ x.length) :
    codecDecode x =
      groupBytes (x.getD 0 0) (x.getD 1 0) (x.getD 2 0) (x.getD 3 0) ++ codecDecode (x.drop 4) := by
  match x, h with
  | _ :: _ :: _ :: _ :: _, _ => rfl

/-- Byte `k` of group `g` of a decoding: 8-bit field `k` of the values of the group's four symbols (R78). -/
theorem codecDecode_getElem? {x : List SymbolCode} {g k : Nat} (hg : g < x.length / 4) (hk : k < 3) :
    (codecDecode x)[3 * g + k]? =
      some (byteField (tableValue (x.getD (4 * g) 0) ++ tableValue (x.getD (4 * g + 1) 0) ++
        tableValue (x.getD (4 * g + 2) 0) ++ tableValue (x.getD (4 * g + 3) 0)) k) := by
  induction g generalizing x with
  | zero =>
    rw [codecDecode_cons (by omega), List.getElem?_append_left (by rw [length_groupBytes]; omega), Nat.mul_zero,
      Nat.zero_add, groupBytes_getElem? _ _ _ _ hk]
  | succ g ih =>
    rw [codecDecode_cons (by omega), List.getElem?_append_right (by rw [length_groupBytes]; omega),
      length_groupBytes, show 3 * (g + 1) + k - 3 = 3 * g + k by omega, ih (by rw [List.length_drop]; omega)]
    simp [Nat.mul_add, Nat.add_comm, Nat.add_left_comm]

/-! #### Words on the wire (R42) -/

theorem bitsOfBytes_eq_flatMap (x : List Byte) : bitsOfBytes x = x.flatMap bitsOf := by
  induction x with
  | nil => rfl
  | cons b x ih => rw [bitsOfBytes, ih, List.flatMap_cons]

theorem encode_encode (x : List Byte) : encode (.encode x) = bits [1,0,0] ++ x.flatMap bitsOf := by
  have hselect : bitsOf (opCode .encode) = bits [1,0,0] := by decide
  rw [← bitsOfBytes_eq_flatMap, ← hselect]
  rfl

/-! #### Decoding an encoding (R83) -/

/-- The bytes of the symbols of a word's fields are the bytes of the word. -/
theorem groupBytes_tableCode_valueFields (w : GroupWord) :
    groupBytes (tableCode (valueField w 0)) (tableCode (valueField w 1)) (tableCode (valueField w 2))
      (tableCode (valueField w 3)) = [byteField w 0, byteField w 1, byteField w 2] := by
  simp only [groupBytes, tableValue_tableCode, valueFields_append]
  rfl

/-- A group's symbols decode to its three bytes. -/
theorem codecDecode_groupSymbols_append (b1 b2 b3 : Byte) (rest : List SymbolCode) :
    codecDecode (groupSymbols b1 b2 b3 ++ rest) = b1 :: b2 :: b3 :: codecDecode rest := by
  have hgroup := groupBytes_tableCode_valueFields (b1 ++ b2 ++ b3)
  rw [byteField_append_zero, byteField_append_one, byteField_append_two] at hgroup
  exact congrArg (· ++ codecDecode rest) hgroup

theorem paddingBytes_add_three (n : Nat) : paddingBytes (n + 3) = paddingBytes n := by
  rw [paddingBytes, Nat.add_mod_right]
  rfl

/-- The synthetic zeros come back as bytes (R83). -/
theorem codecDecode_codecEncode (x : List Byte) :
    codecDecode (codecEncode x) = x ++ List.replicate (paddingBytes x.length) 0 := by
  induction x using codecEncode.induct with
  | case1 => rfl
  | case2 b1 => exact codecDecode_groupSymbols_append b1 0 0 []
  | case3 b1 b2 => exact codecDecode_groupSymbols_append b1 b2 0 []
  | case4 b1 b2 b3 rest ih =>
    rw [codecEncode, codecDecode_groupSymbols_append, ih]
    simp [paddingBytes_add_three]

theorem codecEncode_injective_of_length_eq {x y : List Byte} (hlen : x.length = y.length)
    (h : codecEncode x = codecEncode y) : x = y := by
  have hdecoded := congrArg codecDecode h
  rw [codecDecode_codecEncode, codecDecode_codecEncode] at hdecoded
  exact (List.append_inj hdecoded hlen).1

/-! #### Encoding a decoding (R84) -/

/-- The symbols of a word's bytes are the codes of the word's fields. -/
theorem groupSymbols_byteFields (w : GroupWord) :
    groupSymbols (byteField w 0) (byteField w 1) (byteField w 2) =
      [tableCode (valueField w 0), tableCode (valueField w 1), tableCode (valueField w 2),
        tableCode (valueField w 3)] := by
  simp only [groupSymbols, byteFields_append]
  rfl

/-- The bytes of four legal symbols encode to those symbols. -/
theorem codecEncode_groupBytes_append {s1 s2 s3 s4 : SymbolCode} (h1 : legal s1 = true) (h2 : legal s2 = true)
    (h3 : legal s3 = true) (h4 : legal s4 = true) (rest : List Byte) :
    codecEncode (groupBytes s1 s2 s3 s4 ++ rest) = s1 :: s2 :: s3 :: s4 :: codecEncode rest := by
  have hgroup := groupSymbols_byteFields (tableValue s1 ++ tableValue s2 ++ tableValue s3 ++ tableValue s4)
  rw [valueField_append_zero, valueField_append_one, valueField_append_two, valueField_append_three,
    tableCode_tableValue h1, tableCode_tableValue h2, tableCode_tableValue h3, tableCode_tableValue h4] at hgroup
  exact congrArg (· ++ codecEncode rest) hgroup

theorem codecEncode_codecDecode {x : List SymbolCode} (hvalid : validString x = true) :
    codecEncode (codecDecode x) = x := by
  obtain ⟨hlen, hlegal⟩ : x.length % 4 = 0 ∧ ∀ c ∈ x, legal c = true := by simpa [validString] using hvalid
  clear hvalid
  induction x using codecDecode.induct with
  | case1 s1 s2 s3 s4 rest ih =>
    simp only [List.forall_mem_cons] at hlegal
    obtain ⟨h1, h2, h3, h4, hrest⟩ := hlegal
    rw [codecDecode, codecEncode_groupBytes_append h1 h2 h3 h4,
      ih ((Nat.add_mod_right rest.length 4).symm.trans hlen) hrest]
  | case2 x hx =>
    match x, hx, hlen with
    | [], _, _ => rfl
    | s1 :: s2 :: s3 :: s4 :: rest, hx, _ => exact absurd rfl (hx s1 s2 s3 s4 rest)

theorem codecDecode_injective_of_validString {x y : List SymbolCode} (hx : validString x = true)
    (hy : validString y = true) (h : codecDecode x = codecDecode y) : x = y := by
  rw [← codecEncode_codecDecode hx, h, codecEncode_codecDecode hy]

/-- `k` zero bytes written out leave as many fewer synthetic ones, so both encodings decode to the same bytes; DECODE
is injective on encodings, so they are one (R83). -/
theorem codecEncode_append_zeros {x : List Byte} {k : Nat} (hk : k ≤ paddingBytes x.length) :
    codecEncode (x ++ List.replicate k 0) = codecEncode x := by
  have hpadding : k + paddingBytes (x.length + k) = paddingBytes x.length := by
    unfold paddingBytes at hk ⊢
    omega
  refine codecDecode_injective_of_validString (validString_codecEncode _) (validString_codecEncode x) ?_
  rw [codecDecode_codecEncode, codecDecode_codecEncode, List.length_append, List.length_replicate, List.append_assoc,
    List.replicate_append_replicate, hpadding]

/-! #### The symbols of a short group (R86) -/

theorem tableCode_mem_of_toNat_mod_four {v : Sextet} (h : v.toNat % 4 = 0) :
    (tableCode v).toNat ∈ [48, 52, 56, 67, 71, 75, 79, 83, 87, 97, 101, 105, 109, 113, 117, 121] := by
  revert v; decide

theorem tableCode_mem_of_toNat_mod_sixteen {v : Sextet} (h : v.toNat % 16 = 0) :
    (tableCode v).toNat ∈ [48, 71, 87, 109] := by
  revert v; decide

theorem toNat_packSecond_zero_mod (b1 : Byte) : (packSecond b1 0).toNat % 16 = 0 := by
  rw [toNat_packSecond_zero, Nat.shiftLeft_eq]
  exact Nat.mul_mod_left _ 16

theorem toNat_packThird_zero_mod (b2 : Byte) : (packThird b2 0).toNat % 4 = 0 := by
  rw [toNat_packThird_zero, Nat.shiftLeft_eq]
  exact Nat.mul_mod_left _ 4

/-- The symbols of the last group when two bytes are left: the third byte is the synthetic zero. -/
theorem codecEncode_getElem?_of_mod_two {x : List Byte} (h : x.length % 3 = 2) :
    (codecEncode x)[4 * (x.length / 3) + 2]? = some (tableCode (packThird (x.getD (3 * (x.length / 3) + 1) 0) 0)) ∧
    (codecEncode x)[4 * (x.length / 3) + 3]? = some 48 := by
  have hg : x.length / 3 < (x.length + 2) / 3 := by omega
  have hlast : x.getD (3 * (x.length / 3) + 2) 0 = 0 := List.getD_eq_default _ _ (by omega)
  constructor
  · rw [codecEncode_getElem? hg (by decide), hlast, ← packThird_eq]
  · rw [codecEncode_getElem? hg (by decide), hlast, ← packFourth_eq]
    rfl

/-- The symbols of the last group when one byte is left: the second and third bytes are synthetic zeros. -/
theorem codecEncode_getElem?_of_mod_one {x : List Byte} (h : x.length % 3 = 1) :
    (codecEncode x)[4 * (x.length / 3) + 1]? = some (tableCode (packSecond (x.getD (3 * (x.length / 3)) 0) 0)) ∧
    (codecEncode x)[4 * (x.length / 3) + 2]? = some 48 ∧
    (codecEncode x)[4 * (x.length / 3) + 3]? = some 48 := by
  have hg : x.length / 3 < (x.length + 2) / 3 := by omega
  have hsecond : x.getD (3 * (x.length / 3) + 1) 0 = 0 := List.getD_eq_default _ _ (by omega)
  have hthird : x.getD (3 * (x.length / 3) + 2) 0 = 0 := List.getD_eq_default _ _ (by omega)
  refine ⟨?_, ?_, ?_⟩
  · rw [codecEncode_getElem? hg (by decide), hsecond, hthird, ← packSecond_eq]
  · rw [codecEncode_getElem? hg (by decide), hsecond, hthird, ← packThird_eq]
    rfl
  · rw [codecEncode_getElem? hg (by decide), hsecond, hthird, ← packFourth_eq]
    rfl

/-! #### What DECODE reports (R79, R80, R104) -/

theorem getElem?_eq_completeGroups {x : List SymbolCode} {j : Nat} (hj : j < (completeGroups x).length) :
    x[j]? = some (completeGroups x)[j] := by
  rw [← List.getElem?_eq_getElem hj, completeGroups,
    List.getElem?_take_of_lt (by rwa [length_completeGroups] at hj)]

/-- The first illegal symbol of the complete groups is reported (R80). -/
theorem decodeAnswer_of_first_illegal {x : List SymbolCode} {k : Nat} {c : SymbolCode}
    (hk : k < 4 * (x.length / 4)) (hc : x[k]? = some c) (hillegal : c.toNat ∉ alphabetCodes)
    (hbefore : ∀ j d, j < k → x[j]? = some d → d.toNat ∈ alphabetCodes) :
    decodeAnswer x = .fault ⟨.alphabet, .badSymbol, k⟩ := by
  have hidx : (completeGroups x).findIdx? (fun d => !legal d) = some k := by
    rw [← length_completeGroups] at hk
    obtain rfl : c = (completeGroups x)[k] := Option.some.inj (hc.symm.trans (getElem?_eq_completeGroups hk))
    refine List.findIdx?_eq_some_iff_getElem.2 ⟨hk, ?_, fun j hj => ?_⟩
    · simpa [← legal_iff_mem] using hillegal
    · simpa [legal_iff_mem] using hbefore j _ hj (getElem?_eq_completeGroups (hj.trans hk))
  rw [decodeAnswer, hidx]

/-- With no illegal symbol in the complete groups, a length that is no multiple of 4 is reported (R79). -/
theorem decodeAnswer_of_malformed_length {x : List SymbolCode} (hlen : x.length % 4 ≠ 0)
    (hlegal : ∀ j d, j < 4 * (x.length / 4) → x[j]? = some d → d.toNat ∈ alphabetCodes) :
    decodeAnswer x = .fault ⟨.alphabet, .badLength, 4 * (x.length / 4)⟩ := by
  have hidx : (completeGroups x).findIdx? (fun d => !legal d) = none := by
    rw [findIdx?_illegal_eq_none_iff, List.all_eq_true]
    intro d hd
    obtain ⟨j, hj, rfl⟩ := List.getElem_of_mem hd
    exact (legal_iff_mem _).2 (hlegal j _ (by rwa [length_completeGroups] at hj) (getElem?_eq_completeGroups hj))
  rw [decodeAnswer, hidx]
  exact if_neg hlen

/-! #### The obligations -/

/-- Settles O40: the group loop computes `codecEncode`, whose symbols are read off group by group. -/
theorem encodeAnswersGroupByGroup : Obligations.EncodeAnswersGroupByGroup :=
  fun x _ hadmits => ⟨codecEncode x, exec_encode hadmits, length_codecEncode x,
    fun _ _ => codecEncode_getElem?, encode_encode x, bitsOfBytes_eq_flatMap _⟩

/-- Settles O45: on a valid string the group loop computes `codecDecode`, whose bytes are read off group by group. -/
theorem decodeAnswersGroupByGroup : Obligations.DecodeAnswersGroupByGroup :=
  fun x _ hadmits hvalid => ⟨codecDecode x, exec_decode_of_validString hadmits hvalid, length_codecDecode x,
    fun _ _ => codecDecode_getElem?⟩

/-- Settles O48: an encoding is a valid string, and each group of it decodes to its bytes, synthetic zeros included. -/
theorem decodeOfEncodeAppendsTheSyntheticZeros : Obligations.DecodeOfEncodeAppendsTheSyntheticZeros := by
  intro x s hadmits hencoded
  rw [← length_codecEncode] at hencoded
  refine ⟨codecEncode x, exec_encode hadmits, ?_⟩
  rw [exec_decode_of_validString hencoded (validString_codecEncode x), codecDecode_codecEncode]
  rfl

/-- Settles O50: one encoding decodes to one byte sequence, and inputs of one length get the same zeros after them. -/
theorem encodeIsInjectiveOnEachLength : Obligations.EncodeIsInjectiveOnEachLength :=
  fun _ _ _ _ hlen hx hy =>
    codecEncode_injective_of_length_eq hlen ((eq_codecEncode_of_exec hx).symm.trans (eq_codecEncode_of_exec hy))

/-- Settles O51: the bytes are fewer than the symbols, so the bound admits them, and they encode to the string. -/
theorem encodeOfDecodeIsTheValidString : Obligations.EncodeOfDecodeIsTheValidString := by
  intro x s hvalid hadmits
  have hbytes : (codecDecode x).length ≤ x.length := by rw [length_codecDecode]; omega
  refine ⟨codecDecode x, exec_decode_of_validString hadmits hvalid, ?_⟩
  rw [exec_encode (admits_of_le hadmits hbytes), codecEncode_codecDecode hvalid]

/-- Settles O52: what DECODE accepts is a valid string, which is the encoding of its bytes. -/
theorem decodeIsInjectiveOnValidStrings : Obligations.DecodeIsInjectiveOnValidStrings := by
  intro x y s r hx hy
  obtain ⟨hvalidx, rfl⟩ := decodeAnswer_eq_ok_iff.1 (eq_answer_of_exec hx).symm
  obtain ⟨hvalidy, hbytes⟩ := decodeAnswer_eq_ok_iff.1 (eq_answer_of_exec hy).symm
  exact codecDecode_injective_of_validString hvalidx hvalidy (Result.byteSequence.inj hbytes)

/-- Settles O41. -/
theorem encodeOutputIsAValidStringOfItsLength : Obligations.EncodeOutputIsAValidStringOfItsLength :=
  fun x _ hadmits =>
    have hvalid := validString_codecEncode x
    ⟨codecEncode x, exec_encode hadmits, length_codecEncode x, ((validString_iff _).1 hvalid).1, hvalid⟩

/-- Settles O43: a symbol made from synthetic zeros alone is `0`; one made half from them has a value whose low bits are
zero. -/
theorem paddingFixesSymbolsOfAShortGroup : Obligations.PaddingFixesSymbolsOfAShortGroup := by
  refine fun x s hadmits => ⟨codecEncode x, exec_encode hadmits, fun htwo => ?_, fun hone => ?_⟩
  · obtain ⟨hthird, hfourth⟩ := codecEncode_getElem?_of_mod_two htwo
    exact ⟨hfourth, _, hthird, tableCode_mem_of_toNat_mod_four (toNat_packThird_zero_mod _)⟩
  · obtain ⟨hsecond, hthird, hfourth⟩ := codecEncode_getElem?_of_mod_one hone
    exact ⟨hfourth, hthird, _, hsecond, tableCode_mem_of_toNat_mod_sixteen (toNat_packSecond_zero_mod _)⟩

/-- Settles O46. -/
theorem decodeReportsTheFirstIllegalSymbol : Obligations.DecodeReportsTheFirstIllegalSymbol := by
  intro x s k c hadmits hk hc hillegal hbefore
  rw [exec_decode hadmits, decodeAnswer_of_first_illegal hk hc hillegal hbefore]

/-- Settles O47. -/
theorem decodeReportsTheMalformedLength : Obligations.DecodeReportsTheMalformedLength := by
  intro x s hadmits hlen hlegal
  rw [exec_decode hadmits, decodeAnswer_of_malformed_length hlen hlegal]

/-- Settles O49: the two encodings decode to the same bytes. -/
theorem zeroExtensionsShareAnEncoding : Obligations.ZeroExtensionsShareAnEncoding := by
  intro x s k hk hadmits
  have hextended : s.config.admits (x ++ List.replicate k 0).length = true := by simpa using hadmits
  refine ⟨codecEncode x, exec_encode (admits_of_le hadmits (Nat.le_add_right _ k)), ?_⟩
  rw [exec_encode hextended, codecEncode_append_zeros hk]

/-- Settles O42. -/
theorem emptyInputGivesEmptyOutput : Obligations.EmptyInputGivesEmptyOutput :=
  fun s => ⟨exec_encode (admits_zero s.config), exec_decode_of_validString (admits_zero s.config) rfl⟩

end Sys2Proof.Machine

/-! ### The host's compositions over the CORE and the collaborators (R90 to R99) -/

namespace Sys2Proof.Machine

open Sys2Proof.Safety

/-! #### The CORE as the host sees it (R92, R93) -/

/-- The host gets the response owed to a request the implementation serves. -/
theorem coreAnswer_of_wellFormed {c : Config} {i : Instr} (h : i.wellFormed c = true) :
    coreAnswer c i = some (answer i) := by
  have hstep : step { State.reset with config := c, inputs := [.request (encode i)] } = .next _ :=
    step_of_meaningful rfl ⟨i, decode_encode i, h⟩
  rw [coreAnswer, hstep]
  simp [State.recorded, State.reset, recordOf, decode_encode]

/-- DECODE's response is its bytes or an alphabet error, the only kind the CORE raises (R100). -/
theorem decodeAnswer_cases (x : List SymbolCode) :
    decodeAnswer x = .ok (.byteSequence (codecDecode x)) ∨
    ∃ cause index, decodeAnswer x = .fault ⟨.alphabet, cause, index⟩ := by
  unfold decodeAnswer
  split
  · exact .inr ⟨_, _, rfl⟩
  · split
    · exact .inl rfl
    · exact .inr ⟨_, _, rfl⟩

theorem decodeAnswer_of_not_validString {x : List SymbolCode} (h : validString x = false) :
    ∃ cause index, decodeAnswer x = .fault ⟨.alphabet, cause, index⟩ := by
  rcases decodeAnswer_cases x with hok | hfault
  · rw [(decodeAnswer_eq_ok_iff.1 hok).1] at h
    cases h
  · exact hfault

section

variable {Text : Type} (k : Collaborators Text)

/-! #### The UTF-8 check (R91; log entry 20) -/

theorem Collaborators.utf8check_utf8 (text : Text) : k.utf8check (k.utf8 text) = some text :=
  (k.utf8check_eq _ text).2 rfl

theorem Collaborators.utf8check_eq_none {x : List Byte} (h : ∀ text, k.utf8 text ≠ x) : k.utf8check x = none :=
  Option.eq_none_iff_forall_ne_some.2 fun text htext => h text ((k.utf8check_eq x text).1 htext)

/-! #### The stages of DEFLATE_ENCODE and DEFLATE_DECODE (R92, R93) -/

theorem deflateEncode_of_compress_none {c : Config} {text : Text} (h : k.compress (k.utf8 text) = none) :
    deflateEncode k c text = .failed .compression := by
  simp [deflateEncode, h]

theorem deflateEncode_of_compress_some {c : Config} {text : Text} {z : List Byte}
    (h : k.compress (k.utf8 text) = some z) (hadmits : c.admits z.length = true) :
    deflateEncode k c text = .ok (codecEncode z) := by
  simp [deflateEncode, h, coreAnswer_of_wellFormed (i := .encode z) hadmits, answer]

theorem deflateDecode_of_not_validString {c : Config} {token : List SymbolCode}
    (hadmits : c.admits token.length = true) (hinvalid : validString token = false) :
    deflateDecode k c token = .failed .alphabet := by
  obtain ⟨cause, index, hanswer⟩ := decodeAnswer_of_not_validString hinvalid
  simp [deflateDecode, coreAnswer_of_wellFormed (i := .decode token) hadmits, answer, hanswer]

theorem deflateDecode_of_validString {c : Config} {token : List SymbolCode}
    (hadmits : c.admits token.length = true) (hvalid : validString token = true) :
    deflateDecode k c token = inflateText k (codecDecode token) := by
  simp [deflateDecode, coreAnswer_of_wellFormed (i := .decode token) hadmits, answer,
    decodeAnswer_of_validString hvalid]

theorem inflateText_of_decompress_none {z : List Byte} (h : k.decompress z = none) :
    inflateText k z = .failed .compression := by
  simp [inflateText, h]

theorem inflateText_of_no_text {z x : List Byte} (h : k.decompress z = some x) (hx : ∀ text, k.utf8 text ≠ x) :
    inflateText k z = .failed .decoding := by
  simp [inflateText, h, k.utf8check_eq_none hx]

theorem inflateText_of_text {z : List Byte} {text : Text} (h : k.decompress z = some (k.utf8 text)) :
    inflateText k z = .ok text := by
  simp [inflateText, h, k.utf8check_utf8]

/-- The decompressor reads through the synthetic zeros that the CORE's round trip leaves after a stream (R83, R90). -/
theorem decompress_codecDecode_codecEncode {x z : List Byte} (hundo : k.DecompressUndoesCompress)
    (hzeros : k.ToleratesZeros) (h : k.compress x = some z) :
    k.decompress (codecDecode (codecEncode z)) = some x := by
  have hpadding : paddingBytes z.length ≤ 2 := by unfold paddingBytes; omega
  rw [codecDecode_codecEncode, hzeros x z _ h hpadding, hundo x z h]

theorem deflateDecode_codecEncode {c : Config} {text : Text} {z : List Byte} (hundo : k.DecompressUndoesCompress)
    (hzeros : k.ToleratesZeros) (h : k.compress (k.utf8 text) = some z)
    (hadmits : c.admits (4 * ((z.length + 2) / 3)) = true) :
    deflateDecode k c (codecEncode z) = .ok text := by
  rw [← length_codecEncode] at hadmits
  rw [deflateDecode_of_validString k hadmits (validString_codecEncode z)]
  exact inflateText_of_text k (decompress_codecDecode_codecEncode k hundo hzeros h)

theorem deflateRoundTrip_of_deflateEncode {c : Config} {text : Text} {token : List SymbolCode}
    (h : deflateEncode k c text = .ok token) : deflateRoundTrip k c text = deflateDecode k c token := by
  simp [deflateRoundTrip, h]

/-! #### Lowercase hexadecimal (R91; log entries 14 and 19) -/

theorem hexCodes_getElem? (d : BitVec 4) : hexCodes[d.toNat]? = some (hexDigitCode d).toNat := by
  revert d; decide

theorem toNat_highHalf (b : Byte) : (b.extractLsb' 4 4).toNat = b.toNat / 16 := by
  rw [BitVec.extractLsb'_toNat, Nat.shiftRight_eq_div_pow]
  omega

theorem toNat_lowHalf (b : Byte) : (b.extractLsb' 0 4).toNat = b.toNat % 16 := by
  simp

theorem hexCodes_getElem?_high (b : Byte) :
    hexCodes[b.toNat / 16]? = some (hexDigitCode (b.extractLsb' 4 4)).toNat := by
  rw [← toNat_highHalf, hexCodes_getElem?]

theorem hexCodes_getElem?_low (b : Byte) :
    hexCodes[b.toNat % 16]? = some (hexDigitCode (b.extractLsb' 0 4)).toNat := by
  rw [← toNat_lowHalf, hexCodes_getElem?]

theorem length_lowerHex (x : List Byte) : (lowerHex x).length = 2 * x.length := by
  induction x with
  | nil => rfl
  | cons b x ih => rw [lowerHex_cons, List.length_cons, List.length_cons, List.length_cons, ih]; omega

/-- Byte `j` stands at `2j` and `2j + 1`, the high digit first. -/
theorem lowerHex_getElem? {x : List Byte} {j : Nat} {b : Byte} (h : x[j]? = some b) :
    (lowerHex x)[2 * j]? = some (hexDigitCode (b.extractLsb' 4 4)) ∧
    (lowerHex x)[2 * j + 1]? = some (hexDigitCode (b.extractLsb' 0 4)) := by
  induction x generalizing j with
  | nil => cases h
  | cons a x ih =>
    cases j with
    | zero => cases h; exact ⟨rfl, rfl⟩
    | succ j => exact ih h

theorem map_toNat_lowerHex (x : List Byte) :
    (lowerHex x).map BitVec.toNat =
      x.flatMap (fun b => [hexCodes.getD (b.toNat / 16) 0, hexCodes.getD (b.toNat % 16) 0]) := by
  simp [lowerHex, List.map_flatMap, List.getD_eq_getElem?_getD, hexCodes_getElem?_high, hexCodes_getElem?_low]

theorem eq_lowerHex_of_map_toNat {digits bytes : List Byte}
    (h : digits.map BitVec.toNat =
      bytes.flatMap (fun b => [hexCodes.getD (b.toNat / 16) 0, hexCodes.getD (b.toNat % 16) 0])) :
    digits = lowerHex bytes :=
  List.map_injective_iff.2 BitVec.toNat_injective (h.trans (map_toNat_lowerHex bytes).symm)

/-- A code that is no digit of either case has no value. -/
theorem hexDigitValue_eq_none {c : Byte} (hlower : c.toNat ∉ hexCodes) (hupper : ¬ (65 ≤ c.toNat ∧ c.toNat ≤ 70)) :
    hexDigitValue c = none := by
  revert c; decide +kernel

/-! #### The marker (R94, R95) -/

/-- What HEX_DECODE hands to the hex decoder: the string without its marker, if it begins with one. -/
def stripMarker (x : List Byte) : List Byte :=
  if x.take 2 = hexMarker then x.drop 2 else x

theorem stripMarker_hexMarker_append (x : List Byte) : stripMarker (hexMarker ++ x) = x :=
  if_pos rfl

theorem stripMarker_of_unmarked {x : List Byte} (h : x.take 2 ≠ hexMarker) : stripMarker x = x :=
  if_neg h

/-- The marker has two elements, so stripping it keeps an odd length odd. -/
theorem length_stripMarker_mod_two (x : List Byte) : (stripMarker x).length % 2 = x.length % 2 := by
  by_cases hmarked : x.take 2 = hexMarker
  · obtain ⟨digits, rfl⟩ : ∃ digits, x = hexMarker ++ digits := ⟨x.drop 2, by rw [← hmarked, List.take_append_drop]⟩
    rw [stripMarker_hexMarker_append, List.length_append]
    exact (Nat.add_mod_left 2 _).symm
  · rw [stripMarker_of_unmarked hmarked]

/-- The marker's first element is no digit. -/
theorem take_two_lowerHex_ne_hexMarker (x : List Byte) : (lowerHex x).take 2 ≠ hexMarker := by
  intro hmarked
  have hmem : (126 : Byte) ∈ lowerHex x := List.mem_of_mem_take (i := 2) (hmarked ▸ List.mem_cons_self)
  exact (readHex_some (readHex_lowerHex x)).2 126 hmem (by decide)

theorem hexEncode_eq (text : Text) : hexEncode k text = hexMarker ++ lowerHex (k.utf8 text) := by
  rw [hexEncode, k.hexenc_eq]

/-- Element `i` of the digits stands after the two of the marker. -/
theorem hexEncode_getElem?_two_add (text : Text) (i : Nat) :
    (hexEncode k text)[2 + i]? = (lowerHex (k.utf8 text))[i]? := by
  rw [hexEncode_eq, Nat.add_comm]
  rfl

/-! #### The stages of HEX_DECODE (R95) -/

theorem hexDecode_of_no_text {x z : List Byte} (h : k.hexdec (stripMarker x) = some z)
    (hz : ∀ text, k.utf8 text ≠ z) : hexDecode k x = .failed .decoding := by
  rw [stripMarker] at h
  simp [hexDecode, h, k.utf8check_eq_none hz]

theorem hexDecode_of_text {x : List Byte} {text : Text} (h : k.hexdec (stripMarker x) = some (k.utf8 text)) :
    hexDecode k x = .ok text := by
  rw [stripMarker] at h
  simp [hexDecode, h, k.utf8check_utf8]

theorem hexdec_stripMarker_lowerHex (x : List Byte) : k.hexdec (stripMarker (lowerHex x)) = some x := by
  rw [stripMarker_of_unmarked (take_two_lowerHex_ne_hexMarker x), k.hexdec_lowerHex]

theorem hexdec_stripMarker_marked_lowerHex (x : List Byte) :
    k.hexdec (stripMarker (hexMarker ++ lowerHex x)) = some x := by
  rw [stripMarker_hexMarker_append, k.hexdec_lowerHex]

end

/-! #### The obligations -/

/-- Settles O53: DECODE of the token is the compressed stream and at most two zeros, which the decompressor ignores. -/
theorem deflateRoundTripsThroughTheCodec : Obligations.DeflateRoundTripsThroughTheCodec := by
  intro Text k c hundo hzeros
  have hbounded : ∀ text z, k.compress (k.utf8 text) = some z →
      c.admits z.length = true → c.admits (4 * ((z.length + 2) / 3)) = true → ∃ token,
        deflateEncode k c text = .ok token ∧ deflateDecode k c token = .ok text ∧
          deflateRoundTrip k c text = .ok text := by
    intro text z hz hstream htoken
    have hencode := deflateEncode_of_compress_some k hz hstream
    have hdecode := deflateDecode_codecEncode k hundo hzeros hz htoken
    exact ⟨codecEncode z, hencode, hdecode, (deflateRoundTrip_of_deflateEncode k hencode).trans hdecode⟩
  refine ⟨hbounded, fun hnone hcompress text => ?_⟩
  have hadmits : ∀ n, c.admits n = true := fun _ => admits_iff.2 (.inl hnone)
  obtain ⟨z, hz⟩ := Option.ne_none_iff_exists'.1 (hcompress text)
  obtain ⟨-, -, -, hround⟩ := hbounded text z hz (hadmits _) (hadmits _)
  exact hround

/-- Settles O54. -/
theorem deflateDecodeTriesTheCodecFirst : Obligations.DeflateDecodeTriesTheCodecFirst := by
  refine fun Text k c token hadmits => ⟨deflateDecode_of_not_validString k hadmits, fun hvalid => ?_⟩
  rw [deflateDecode_of_validString k hadmits hvalid]
  refine ⟨inflateText_of_decompress_none k, fun x hx => ⟨inflateText_of_no_text k hx, ?_⟩⟩
  rintro text rfl
  exact inflateText_of_text k hx

/-- Settles O57. -/
theorem deflateEncodeFailsOnlyInTheCompressor : Obligations.DeflateEncodeFailsOnlyInTheCompressor :=
  fun _ k _ _ => ⟨deflateEncode_of_compress_none k, fun _ => deflateEncode_of_compress_some k⟩

/-- Settles O58: the digits are those of the byte's halves. -/
theorem hexEncodeAnswersLowercaseHex : Obligations.HexEncodeAnswersLowercaseHex := by
  refine fun Text k text => ⟨?_, rfl, rfl, fun j b hb => ?_⟩
  · rw [hexEncode_eq, List.length_append, length_lowerHex]
    rfl
  · obtain ⟨hhigh, hlow⟩ := lowerHex_getElem? hb
    constructor
    · rw [hexEncode_getElem?_two_add, hhigh, hexCodes_getElem?_high, Option.map_some]
    · rw [Nat.add_assoc, hexEncode_getElem?_two_add, hlow, hexCodes_getElem?_low, Option.map_some]

/-- Settles O59: the hex decoder is given a string of the same parity, and the foreign element, whether or not a marker
was stripped. -/
theorem hexDecodeFailsOnOddLengthAndForeignDigits : Obligations.HexDecodeFailsOnOddLengthAndForeignDigits := by
  refine fun Text k x => ⟨fun hodd => ?_, fun c hc hlower hupper => ?_⟩
  · exact hexDecode_refused k (k.hexdec_odd ((length_stripMarker_mod_two x).trans hodd))
  · have hforeign : k.hexdec x = none := k.hexdec_foreign hc (hexDigitValue_eq_none hlower hupper)
    refine ⟨hexDecode_refused k ?_, fun hunmarked => hexDecode_refused k ?_⟩
    · exact (congrArg k.hexdec (stripMarker_hexMarker_append x)).trans hforeign
    · exact (congrArg k.hexdec (stripMarker_of_unmarked hunmarked)).trans hforeign

/-- Settles O60: the digits are the bytes' lowercase hexadecimal, which never begins with the marker. -/
theorem hexDecodeChecksTheDecodedBytes : Obligations.HexDecodeChecksTheDecodedBytes := by
  intro Text k bytes digits hdigits
  obtain rfl := eq_lowerHex_of_map_toNat hdigits
  have hplain := hexdec_stripMarker_lowerHex k bytes
  have hmarked := hexdec_stripMarker_marked_lowerHex k bytes
  constructor
  · intro hnone
    exact ⟨hexDecode_of_no_text k hplain hnone, hexDecode_of_no_text k hmarked hnone⟩
  · rintro text rfl
    exact ⟨hexDecode_of_text k hplain, hexDecode_of_text k hmarked⟩

/-- Settles O55. -/
theorem hexRoundTripsUnderItsMarker : Obligations.HexRoundTripsUnderItsMarker := by
  intro Text k text
  rw [hexRoundTrip, hexEncode_eq]
  exact hexDecode_of_text k (hexdec_stripMarker_marked_lowerHex k (k.utf8 text))

end Sys2Proof.Machine

/-! ### The alphabet error (R100 to R104) -/

namespace Sys2Proof.Machine

open Sys2Proof.Safety

/-- The elements of `x` at indices below `k` are legal. -/
def LegalBefore (x : List SymbolCode) (k : Nat) : Prop :=
  ∀ j d, j < k → x[j]? = some d → legal d = true

theorem legalBefore_of_completeGroups {x : List SymbolCode} {k : Nat} (hk : k ≤ (completeGroups x).length)
    (h : ∀ j (hj : j < k), legal ((completeGroups x)[j]'(hj.trans_le hk)) = true) : LegalBefore x k := by
  intro j d hj hd
  rw [getElem?_eq_completeGroups (hj.trans_le hk)] at hd
  exact Option.some.inj hd ▸ h j hj

/-- DECODE faults in two ways: the scan of the complete groups stops at their first illegal element, or it reaches
their end and elements are left over (R79, R80, R104). -/
theorem decodeAnswer_eq_fault {x : List SymbolCode} {f : FaultReport} (h : decodeAnswer x = .fault f) :
    (∃ k c, f = ⟨.alphabet, .badSymbol, k⟩ ∧ k < 4 * (x.length / 4) ∧ x[k]? = some c ∧ legal c = false ∧
      LegalBefore x k) ∨
    (f = ⟨.alphabet, .badLength, 4 * (x.length / 4)⟩ ∧ x.length % 4 ≠ 0 ∧ LegalBefore x (4 * (x.length / 4))) := by
  rw [decodeAnswer] at h
  split at h
  · next k hfirst =>
    cases h
    obtain ⟨hk, hillegal, hbefore⟩ := List.findIdx?_eq_some_iff_getElem.1 hfirst
    have hlegal : LegalBefore x k :=
      legalBefore_of_completeGroups hk.le fun j hj => by simpa using hbefore j hj
    rw [Bool.not_eq_true'] at hillegal
    exact .inl ⟨k, _, rfl, length_completeGroups x ▸ hk, getElem?_eq_completeGroups hk, hillegal, hlegal⟩
  · next hnone =>
    split at h
    · cases h
    · next hlen =>
      cases h
      have hall := List.all_eq_true.1 ((findIdx?_illegal_eq_none_iff _).1 hnone)
      exact .inr ⟨rfl, hlen, legalBefore_of_completeGroups (length_completeGroups x).ge
        fun _ _ => hall _ (List.getElem_mem _)⟩

/-- Settles O18: a FAULT is the response owed, which is one for an illegal operand of S2V and for DECODE's two faults
only. -/
theorem everyFaultIsTheAlphabetError : Obligations.EveryFaultIsTheAlphabetError := by
  intro i s f hexec
  have hanswer := eq_answer_of_exec hexec
  cases i with
  | v2s v => cases hanswer
  | s2v c =>
    rw [answer] at hanswer
    split at hanswer
    · cases hanswer
    · next hillegal =>
      cases hanswer
      exact ⟨rfl, rfl, .inl ⟨rfl, rfl, .inl ⟨c, rfl, Bool.eq_false_of_not_eq_true hillegal, rfl⟩⟩⟩
  | pack3 b1 b2 b3 => cases hanswer
  | unpack4 c1 c2 c3 c4 => cases hanswer
  | encode x => cases hanswer
  | decode x =>
    rcases decodeAnswer_eq_fault hanswer.symm with ⟨k, c, rfl, hk, hc, hillegal, hlegal⟩ | ⟨rfl, hlen, hlegal⟩
    · exact ⟨rfl, rfl, .inl ⟨rfl, rfl, .inr ⟨x, c, rfl, hk, hc, hillegal, hlegal⟩⟩⟩
    · exact ⟨rfl, rfl, .inr ⟨rfl, rfl, x, rfl, hlen, rfl, hlegal⟩⟩

end Sys2Proof.Machine

/-! ### Resets (R116, R117) -/

namespace Sys2Proof.Machine

open Sys2Proof.Safety

/-- A request the instance serves is taken and gets the response owed. -/
theorem step_of_request {s : State} {r : Bits} {rest : List HostInput} {i : Instr}
    (hinputs : s.inputs = .request r :: rest) (hdecode : decode r = .ok i) (hwf : i.wellFormed s.config = true) :
    step s = .next (answered (s.withInputs rest) i (answer i)) := by
  rw [step_of_inputs_cons hinputs, serveInput, serveRequest_of_decode hdecode]
  exact exec_of_wellFormed (s := s.withInputs rest) hwf

/-- A reset during an operation leaves the request in the record, with no response (R117). -/
theorem step_of_requestThenReset {s : State} {r : Bits} {rest : List HostInput} {i : Instr}
    (hinputs : s.inputs = .requestThenReset r :: rest) (hdecode : decode r = .ok i)
    (hwf : i.wellFormed s.config = true) :
    step s = .next ((s.withInputs rest).abandon i) := by
  rw [step_of_inputs_cons hinputs, serveInput, serveRequest_of_decode hdecode]
  exact abandonInstead_of_wellFormed (s := s.withInputs rest) hwf

/-- Settles O13: the response to the request presented again is the one owed to it, from the abandoned state as from
any other. -/
theorem resetDuringAnOperationAbandonsIt : Obligations.ResetDuringAnOperationAbandonsIt := by
  intro s r rest i hinputs hdecode hwf
  refine ⟨(s.withInputs (.request r :: rest)).abandon i, answer i, ?_, rfl, ?_, fun u hconfig hu => ?_⟩
  · exact step_of_requestThenReset hinputs hdecode hwf
  · exact step_of_request rfl hdecode hwf
  · exact step_of_request hu hdecode (hconfig ▸ hwf)

/-- Settles O12. -/
theorem resetOfAnIdleInstanceChangesNothing : Obligations.ResetOfAnIdleInstanceChangesNothing := by
  intro s rest hinputs
  rw [step_of_inputs_cons hinputs, serveInput, State.resetInstance_eq]
  rfl

end Sys2Proof.Machine

/-! ### A row's word placed as a request, the canonical form of buffers, idleness and reset (R23, R114) -/

namespace Sys2Proof.Machine

open Sys2Proof.Safety

/-! #### A row's word as the next request (log entries 5, 11) -/

theorem toOption_decode_eq_some_iff {r : Bits} {i : Instr} : (decode r).toOption = some i ↔ decode r = .ok i := by
  cases decode r with
  | ok j => simp [Except.toOption]
  | error e => simp [Except.toOption]

theorem decodeTableWord_eq_some_iff {nbits w : Nat} {i : Instr} :
    decodeTableWord nbits w = some i ↔ ∃ r, tableRequest nbits w = some r ∧ decode r = .ok i := by
  simp only [decodeTableWord, Option.bind_eq_some_iff, toOption_decode_eq_some_iff]

/-- The host presents the very bits that the decoder reads a row's word from. -/
theorem decode_presentedBits {nbits w : Nat} {i : Instr} (h : decodeTableWord nbits w = some i) :
    decode (presentedBits nbits w) = .ok i := by
  obtain ⟨r, hr, hdecode⟩ := decodeTableWord_eq_some_iff.1 h
  rwa [presentedBits, hr, Option.getD_some]

@[simp] theorem State.withFetchWord_inputs (s : State) (nbits w : Nat) :
    (s.withFetchWord nbits w).inputs = .request (presentedBits nbits w) :: s.inputs := rfl

/-- Taking the placed word gives back the state it was placed in. -/
@[simp] theorem State.withInputs_withFetchWord (s : State) (nbits w : Nat) :
    (s.withFetchWord nbits w).withInputs s.inputs = s := rfl

/-! #### A buffer in canonical form (log entry 9) -/

/-- In canonical form a read gives just the elements that are listed: no listed element hides another. -/
theorem Memory.read_eq_some_iff {m : Memory} (h : m.wf) (i : Nat) (v : Byte) :
    m.read i = some v ↔ (i, v) ∈ m := by
  induction m with
  | nil => simp [Memory.read]
  | cons c m ih =>
    obtain ⟨a, b⟩ := c
    obtain ⟨hhead, htail⟩ := List.pairwise_cons.1 h
    rw [Memory.read, List.mem_cons, Prod.mk.injEq]
    split
    · next heq =>
      have hnot : (i, v) ∉ m := fun hmem => (hhead _ hmem).ne heq.symm
      simp [heq ▸ hnot, heq, eq_comm]
    · next hne => simp [hne, ih htail]

/-- A buffer in canonical form is fixed by what its indices read. -/
theorem Memory.eq_of_read_eq {m n : Memory} (hm : m.wf) (hn : n.wf) (h : ∀ i, m.read i = n.read i) : m = n := by
  have hasymm : Std.Asymm fun x y : Host.Cell => x.1 < y.1 := ⟨fun _ _ => Nat.lt_asymm⟩
  refine List.Pairwise.eq_of_mem_iff hm hn fun ⟨i, v⟩ => ?_
  rw [← Memory.read_eq_some_iff hm, ← Memory.read_eq_some_iff hn, h i]

/-! #### An idle instance and the reset state (R23, R114) -/

theorem step_of_inputs_nil {s : State} (h : s.inputs = []) : step s = .next s := by
  simp [step, serveNext, h]

@[simp] theorem State.reset_inputs : State.reset.inputs = [] := rfl

@[simp] theorem State.reset_transcript : State.reset.transcript = [] := rfl

@[simp] theorem State.reset_nmax : State.reset.config.nmax = none := rfl

theorem inv_of_transcript_nil {s : State} (h : s.transcript = []) : Inv s := by
  intro t ht
  rw [h] at ht
  exact absurd ht List.not_mem_nil

/-! #### The obligations -/

/-- Settles O9: the placed request decodes to the instruction, and taking it leaves the state as it was. -/
theorem placedTableWordIsServedNext : Obligations.PlacedTableWordIsServedNext := by
  intro s nbits w i h
  rw [step_of_inputs_cons (s.withFetchWord_inputs nbits w), serveInput,
    serveRequest_of_decode (decode_presentedBits h), State.withInputs_withFetchWord]

/-- Settles O25. -/
theorem bufferFormIsCanonical : Obligations.BufferFormIsCanonical :=
  ⟨fun _ j v h => Memory.write_wf h j v, Memory.load_wf 0, fun _ _ => Memory.eq_of_read_eq⟩

/-- Settles O10. -/
theorem idleInstanceStaysIdle : Obligations.IdleInstanceStaysIdle :=
  fun _ => step_of_inputs_nil

/-- Settles O11. -/
theorem resetHoldsNothing : Obligations.ResetHoldsNothing :=
  ⟨State.reset_inputs, State.reset_transcript, State.reset_nmax⟩

/-- Settles O20: an empty transcript holds no wrong response. -/
theorem resetTranscriptIsRight : Obligations.ResetTranscriptIsRight :=
  inv_of_transcript_nil State.reset_transcript

end Sys2Proof.Machine
